-- ==== Sys2Proof/Word.lean ====
section
/-! DEFINITION. The plain data the block moves: bits, bytes, captured units and texts (00_scope.md rules R12, R16). -/

namespace Sys2Proof

/-- A bit: `true` is 1 and `false` is 0 (R12). A bit sequence is a `List Bit`, index 0 first in wire order. -/
abbrev Bit := Bool

/-- An 8-bit byte: a register-address byte, a data byte or a captured byte (R76). -/
abbrev Byte := BitVec 8

/-- A captured 9-bit unit `u[0 … 8]` (R116). The value's MOST significant bit is `u[0]`, the first to arrive, as
everywhere in this spec (R13), so the numeral reads in wire order. -/
abbrev CapturedUnit := BitVec 9

/-- A string: an alias (R32), an operation name (R38), a transport's failure information (R253).
DESIGN CHOICE (notes/assumptions/6): a list of characters, any length. -/
abbrev Text := List Char

/-- A timeout (R10 `TIMEOUT`, R102 `T`): "any" duration, passed on and never read.
DESIGN CHOICE (notes/assumptions/6): an integer with no unit. -/
abbrev Duration := Int

end Sys2Proof
end

