-- ==== Sys2Proof/Config.lean ====
section
/-! DEFINITION. The block's fixed parameters (00_scope.md rule R9) and its open ones (R10). -/

namespace Sys2Proof.Config

/-- `SA_W`: slave-address field width in bits (R9). -/
abbrev saWidth : Nat := 4

/-- `SA_LIMIT`: the largest slave address (R9). -/
abbrev saLimit : Int := 15

/-- `CMD_W`: the `commandFieldWidth` of both variants (R9). -/
abbrev cmdWidth : Nat := 4

/-- `RA_W`: the `registerAddressFieldWidth` of both variants (R9). -/
abbrev raWidth : Nat := 8

/-- `RA_BYTES`: the number of address bytes, `RA_W / 8` (R9). -/
abbrev raBytes : Nat := 1

/-- `CODE_ERW` (R9). -/
abbrev codeErw : BitVec 4 := 0b0000#4

/-- `CODE_ERR` (R9). -/
abbrev codeErr : BitVec 4 := 0b0010#4

/-- `UNIT_W`: 8 data bits and 1 parity bit (R9). -/
abbrev unitWidth : Nat := 9

/-- `TOBITS_WMAX`: the largest width the packer accepts (R10, decision D15). -/
abbrev tobitsWmax : Int := 16

/-- The number of command slots `State.reset` has. `N_SLOTS` is OPEN (R10, R31), and the model takes it as the length
of the state's slot list, so a statement about every state is one for every `N_SLOTS`.
DESIGN CHOICE (notes/assumptions/4): 4, used by `State.reset` alone. -/
abbrev nSlots : Nat := 4

/-- `NAME_ERW`: OPEN string (R10, R38), a constant without a value (notes/assumptions/5). -/
opaque nameErw : Text

/-- The string `NAME_ERR` is taken from: OPEN, a constant without a value (notes/assumptions/5). -/
opaque nameErrBase : Text

/-- `NAME_ERR`: OPEN string, distinct from `NAME_ERW` (R10). Every pair of distinct strings is a possible
pair `(nameErw, nameErr)`; a `nameErrBase` equal to `nameErw` is lengthened so that the two always differ. -/
def nameErr : Text :=
  if nameErrBase = nameErw then '_' :: nameErrBase else nameErrBase

/-- `N_SITES`: "this many sites/bus instances exist" (R10, R315). OPEN, used only by the host; no rule of the block
reads it, and nothing in the model does. -/
opaque nSites : Nat

end Sys2Proof.Config
end

