-- ==== Sys2Proof/Syntax.lean ====
section
/-! DEFINITION. What the host can present to the block: the words of the port, and `Instr`, one constructor per row of
spec/opcode_table.json (30_encoding.md rules R100 to R102, R110, R118). -/

namespace Sys2Proof

/-- One operand of a request record (R102). Every integer and every list of integers can be presented, so that an operand
outside its type can be presented and refused (R103). -/
inductive OperandValue where
  /-- `i`, `sa`, `ra`, `bc`, `bus`, `T`, `v` or `w`. -/
  | int (n : Int)
  /-- `payload`, `b`, `bytes` or `u`: the list's elements. -/
  | ints (xs : List Int)
  /-- `alias`: a text, or absent. -/
  | text (t : Option Text)
deriving DecidableEq, Repr

/-- One word presented to the block. `request` is the operation-port request `(op, operands)` of R100, the operands in
the order of R101's table. `commandWord` is the 12-bit command word CW12 of R110, which the opcode table lists and no
operation takes as input (R118, notes/assumptions/10). -/
inductive PortWord where
  | request (op : BitVec 4) (operands : List OperandValue)
  | commandWord (cw : BitVec 12)
deriving DecidableEq, Repr

/-- The instructions: the 18 rows of spec/opcode_table.json in the table's order. -/
inductive Instr where
  /-- `CONSTRUCT_ERW i, sa, ra, payload, alias` (R184). -/
  | constructErw (i sa ra : Int) (payload : List Int) (aliasText : Option Text)
  /-- `CONSTRUCT_ERR i, sa, ra, bc, alias` (R185). -/
  | constructErr (i sa ra bc : Int) (aliasText : Option Text)
  /-- `EXEC i, bus, T` (R254 for an ERW slot, R256 for an ERR slot). -/
  | exec (i bus : Int) (timeout : Duration)
  /-- `FRAME i` (R235). -/
  | frame (i : Int)
  /-- `CMDSF i` (R220). -/
  | cmdsf (i : Int)
  /-- `ADDRSF i` (R225). -/
  | addrsf (i : Int)
  /-- `DATASF i` (R230). -/
  | datasf (i : Int)
  /-- `RDCMD i` (R188). -/
  | rdcmd (i : Int)
  /-- `RDPAY i` (R189). -/
  | rdpay (i : Int)
  /-- `DISC i` (R190). -/
  | disc (i : Int)
  /-- `TOBITS v, w` (R140). -/
  | tobits (v w : Int)
  /-- `SUMBITS b` (R145). -/
  | sumbits (b : List Int)
  /-- `ODDPAR b` (R160). -/
  | oddpar (b : List Int)
  /-- `ODDPARB bytes` (R165). -/
  | oddparb (bytes : List Int)
  /-- `DECU u` (R259). -/
  | decu (u : List Int)
  /-- The reserved operation code 0x0 (R105); whatever operands come with it are not looked at. -/
  | reservedOp0
  /-- The command word `SSSS0000BBBB` (R110, R118): slave address and logical byte count, `BBBB + 1`. -/
  | extendedRegisterWrite (sa : BitVec 4) (bc : BitVec 5)
  /-- The command word `SSSS0010BBBB` (R110, R118). -/
  | extendedRegisterRead (sa : BitVec 4) (bc : BitVec 5)
deriving DecidableEq, Repr

end Sys2Proof
end

