-- ==== Sys2Proof/WellFormed.lean ====
section
/-! DEFINITION. `Instr.wellFormed`: every operand lies inside its type and, where R103 refuses the rest, inside its legal
range (30_encoding.md rules R102, R103, R110). An ill-formed request can be presented and is refused; the upper bound of a slot
index depends on the state (`N_SLOTS`) and is checked by the operations themselves. -/

namespace Sys2Proof

/-- A payload or `bytes` element: 0 to 255 (R102). -/
def isByte (x : Int) : Bool := decide (0 ≤ x) && decide (x ≤ 255)

/-- An element of `b` or `u`: 0 or 1 (R102). -/
def isBit (x : Int) : Bool := decide (x = 0) || decide (x = 1)

/-- A slot index is not negative (R102: `0 ≤ i < N_SLOTS`). -/
def slotIndexOk (i : Int) : Bool := decide (0 ≤ i)

/-- `v ≥ 0` (R102). -/
def valueOk (v : Int) : Bool := decide (0 ≤ v)

/-- `1 ≤ w ≤ TOBITS_WMAX` (R102). -/
def widthOk (w : Int) : Bool := decide (1 ≤ w) && decide (w ≤ Config.tobitsWmax)

/-- `u`: exactly 9 bits (R102). -/
def unitOk (u : List Int) : Bool := u.all isBit && u.length == Config.unitWidth

/-- A command word's byte count is 1 to 16 (R110, R118). -/
def byteCountOk (bc : BitVec 5) : Bool := decide (1 ≤ bc.toNat) && decide (bc.toNat ≤ 16)

/-- The operands of the instruction are inside their types (R102); a command word's byte count is one its field can carry. -/
def Instr.wellFormed : Instr → Bool
  | .constructErw i _ _ payload _ => slotIndexOk i && payload.all isByte
  | .constructErr i _ _ _ _ => slotIndexOk i
  | .exec i _ _ => slotIndexOk i
  | .frame i => slotIndexOk i
  | .cmdsf i => slotIndexOk i
  | .addrsf i => slotIndexOk i
  | .datasf i => slotIndexOk i
  | .rdcmd i => slotIndexOk i
  | .rdpay i => slotIndexOk i
  | .disc i => slotIndexOk i
  | .tobits v w => valueOk v && widthOk w
  | .sumbits b => b.all isBit
  | .oddpar b => b.all isBit
  | .oddparb bytes => bytes.all isByte
  | .decu u => unitOk u
  | .reservedOp0 => true
  | .extendedRegisterWrite _ bc => byteCountOk bc
  | .extendedRegisterRead _ bc => byteCountOk bc

/-- The instruction is an operation-port request (R100), not a command word of the opcode table (R118). -/
def Instr.isRequest : Instr → Bool
  | .constructErw _ _ _ _ _ => true
  | .constructErr _ _ _ _ _ => true
  | .exec _ _ _ => true
  | .frame _ => true
  | .cmdsf _ => true
  | .addrsf _ => true
  | .datasf _ => true
  | .rdcmd _ => true
  | .rdpay _ => true
  | .disc _ => true
  | .tobits _ _ => true
  | .sumbits _ => true
  | .oddpar _ => true
  | .oddparb _ => true
  | .decu _ => true
  | .reservedOp0 => true
  | .extendedRegisterWrite _ _ => false
  | .extendedRegisterRead _ _ => false

/-- Some word of the port stands for the instruction: every request, whatever its operands, so that bad operands can be
presented and refused (R102, R103), and every well-formed command word. -/
def Instr.encodable (i : Instr) : Bool := i.isRequest || i.wellFormed

end Sys2Proof
end

