-- ==== Sys2Proof/Decode.lean ====
section
/-! DEFINITION. The decoder, total on every word of the port and rejecting by name, and after it the encoder, both from
30_encoding.md rules R101, R102, R110 and R118. -/

namespace Sys2Proof

/-- Why a word decodes to no instruction. -/
inductive DecodeError where
  /-- The operands are not the operand record of operation `op` (R100, R102): a wrong number of operands, or one of the
  wrong kind. -/
  | operandShape (op : BitVec 4)
  /-- A command word whose code is neither 0b0000 nor 0b0010: "not an extended-register command of this block" (R118). -/
  | notExtendedRegister (code : BitVec 4)
deriving DecidableEq, Repr

/-- An operation-port request (R100): the code selects the operation (R101), and the operand record is read in the order
of R101's table. Code 0x0 is reserved whatever its operands (R105). -/
def decodeRequest (op : BitVec 4) (operands : List OperandValue) : Except DecodeError Instr :=
  match op.toNat with
  | 0x0 => .ok .reservedOp0
  | 0x1 =>
    match operands with
    | [.int i, .int sa, .int ra, .ints payload, .text a] => .ok (.constructErw i sa ra payload a)
    | _ => .error (.operandShape op)
  | 0x2 =>
    match operands with
    | [.int i, .int sa, .int ra, .int bc, .text a] => .ok (.constructErr i sa ra bc a)
    | _ => .error (.operandShape op)
  | 0x3 =>
    match operands with
    | [.int i, .int bus, .int timeout] => .ok (.exec i bus timeout)
    | _ => .error (.operandShape op)
  | 0x4 =>
    match operands with
    | [.int i] => .ok (.frame i)
    | _ => .error (.operandShape op)
  | 0x5 =>
    match operands with
    | [.int i] => .ok (.cmdsf i)
    | _ => .error (.operandShape op)
  | 0x6 =>
    match operands with
    | [.int i] => .ok (.addrsf i)
    | _ => .error (.operandShape op)
  | 0x7 =>
    match operands with
    | [.int i] => .ok (.datasf i)
    | _ => .error (.operandShape op)
  | 0x8 =>
    match operands with
    | [.int i] => .ok (.rdcmd i)
    | _ => .error (.operandShape op)
  | 0x9 =>
    match operands with
    | [.int i] => .ok (.rdpay i)
    | _ => .error (.operandShape op)
  | 0xA =>
    match operands with
    | [.int i] => .ok (.disc i)
    | _ => .error (.operandShape op)
  | 0xB =>
    match operands with
    | [.int v, .int w] => .ok (.tobits v w)
    | _ => .error (.operandShape op)
  | 0xC =>
    match operands with
    | [.ints b] => .ok (.sumbits b)
    | _ => .error (.operandShape op)
  | 0xD =>
    match operands with
    | [.ints b] => .ok (.oddpar b)
    | _ => .error (.operandShape op)
  | 0xE =>
    match operands with
    | [.ints bytes] => .ok (.oddparb bytes)
    | _ => .error (.operandShape op)
  | _ =>
    match operands with
    | [.ints u] => .ok (.decu u)
    | _ => .error (.operandShape op)

/-- The logical byte count of a command word's byte-count field: `bc = CW12[3:0] + 1` (R118). -/
def byteCountOfField (bcm1 : BitVec 4) : BitVec 5 := bcm1.setWidth 5 + 1#5

/-- The byte-count field of a logical byte count: `BCM1 = bc − 1` (R110). -/
def fieldOfByteCount (bc : BitVec 5) : BitVec 4 := (bc - 1#5).setWidth 4

/-- A command word (R118): `sa = CW12[11:8]`, `code = CW12[7:4]`, `bc = CW12[3:0] + 1`. -/
def decodeCommandWord (cw : BitVec 12) : Except DecodeError Instr :=
  let sa := cw.extractLsb' 8 4
  let code := cw.extractLsb' 4 4
  let bc := byteCountOfField (cw.extractLsb' 0 4)
  if code = Config.codeErw then .ok (.extendedRegisterWrite sa bc)
  else if code = Config.codeErr then .ok (.extendedRegisterRead sa bc)
  else .error (.notExtendedRegister code)

/-- The instruction a word of the port stands for. -/
def decode : PortWord → Except DecodeError Instr
  | .request op operands => decodeRequest op operands
  | .commandWord cw => decodeCommandWord cw

/-- The command word of slave address, command code and byte count minus 1 (R110). -/
def packCommandWord (sa code bcm1 : BitVec 4) : BitVec 12 := sa ++ code ++ bcm1

/-- The word of an instruction (R101's operation codes and operand order, R110's command word). -/
def encode : Instr → PortWord
  | .reservedOp0 => .request 0x0#4 []
  | .constructErw i sa ra payload a => .request 0x1#4 [.int i, .int sa, .int ra, .ints payload, .text a]
  | .constructErr i sa ra bc a => .request 0x2#4 [.int i, .int sa, .int ra, .int bc, .text a]
  | .exec i bus timeout => .request 0x3#4 [.int i, .int bus, .int timeout]
  | .frame i => .request 0x4#4 [.int i]
  | .cmdsf i => .request 0x5#4 [.int i]
  | .addrsf i => .request 0x6#4 [.int i]
  | .datasf i => .request 0x7#4 [.int i]
  | .rdcmd i => .request 0x8#4 [.int i]
  | .rdpay i => .request 0x9#4 [.int i]
  | .disc i => .request 0xA#4 [.int i]
  | .tobits v w => .request 0xB#4 [.int v, .int w]
  | .sumbits b => .request 0xC#4 [.ints b]
  | .oddpar b => .request 0xD#4 [.ints b]
  | .oddparb bytes => .request 0xE#4 [.ints bytes]
  | .decu u => .request 0xF#4 [.ints u]
  | .extendedRegisterWrite sa bc => .commandWord (packCommandWord sa Config.codeErw (fieldOfByteCount bc))
  | .extendedRegisterRead sa bc => .commandWord (packCommandWord sa Config.codeErr (fieldOfByteCount bc))

/-- The operand record of operation `op` (R101) with every operand at zero: the integers 0, the lists empty, the unit
nine 0 bits, the alias absent. -/
def zeroOperands (op : BitVec 4) : List OperandValue :=
  match op.toNat with
  | 0x0 => []
  | 0x1 => [.int 0, .int 0, .int 0, .ints [], .text none]
  | 0x2 => [.int 0, .int 0, .int 0, .int 0, .text none]
  | 0x3 => [.int 0, .int 0, .int 0]
  | 0xB => [.int 0, .int 0]
  | 0xC => [.ints []]
  | 0xD => [.ints []]
  | 0xE => [.ints []]
  | 0xF => [.ints (List.replicate Config.unitWidth 0)]
  | _ => [.int 0]

/-- The port word that a row of the opcode table with `nbits` bits of value `w` stands for (notes/assumptions/8): a value
of at most 4 bits in a row of one byte is an operation code, with zero operands; otherwise it is a command word. A row's bits
beyond the 12 of a command word name no word. -/
def tableWord (nbits w : Nat) : Option PortWord :=
  if nbits ≤ 8 ∧ w < 16 then some (.request (BitVec.ofNat 4 w) (zeroOperands (BitVec.ofNat 4 w)))
  else if w < 4096 then some (.commandWord (BitVec.ofNat 12 w))
  else none

/-- The instruction the decoder reads from a word numbered as spec/opcode_table.json numbers it. -/
def decodeTableWord (nbits w : Nat) : Option Instr :=
  match tableWord nbits w with
  | none => none
  | some p =>
    match decode p with
    | .ok i => some i
    | .error _ => none

end Sys2Proof
end

