-- ==== Sys2Proof/Machine/State.lean ====
section
/-! DEFINITION. The state of the block (10_state.md rules R30 to R41, R47), what the transport and the host exchange with
it (R104, R250, R251, R290, R340), and the reasons the machine can stop. -/

namespace Sys2Proof.Machine

/-- The variant tag of a command: ExtendedRegisterWrite or ExtendedRegisterRead (R32). -/
inductive Kind where
  | erw
  | err
deriving DecidableEq, Repr

/-- A slot's phase (R33). -/
inductive Phase where
  | empty
  | constructed
  | executed
  | failed
deriving DecidableEq, Repr

/-- The phases of a slot that holds a command (R33). -/
inductive HeldPhase where
  | constructed
  | executed
  | failed
deriving DecidableEq, Repr

/-- A held command's fields (R32), with the widths of R32's table. -/
structure Command where
  kind : Kind
  /-- Slave address. -/
  sa : BitVec 4
  /-- Register address. -/
  ra : BitVec 8
  /-- The logical byte count, 1 to 16 (not the byte count minus 1). -/
  bc : BitVec 5
  /-- Written data (ERW) or captured data (ERR). -/
  payload : List Byte
  /-- The spec's `alias`: a label, or absent. -/
  aliasText : Option Text
deriving DecidableEq, Repr

/-- A command slot. An EMPTY slot has no other field: "the fields … hold no value" (R34). -/
inductive Slot where
  | empty
  | held (phase : HeldPhase) (cmd : Command)
deriving DecidableEq, Repr

/-- What the transport answers to a `Burst` (R250). -/
inductive BurstAnswer where
  | ok
  | fail (info : Text)
deriving DecidableEq, Repr

/-- What the transport answers to a `Capture` (R251). -/
inductive CaptureAnswer where
  | units (us : List CapturedUnit)
  | fail (info : Text)
deriving DecidableEq, Repr

/-- A transport event of `hist` (R41, R250, R251). -/
inductive Event where
  | burst (bus : Int) (name : Text) (frame : List Bit) (timeout : Duration) (answer : BurstAnswer)
  | capture (bus : Int) (name : Text) (n : Nat) (timeout : Duration) (answer : CaptureAnswer)
deriving DecidableEq, Repr

/-- The model fault that `faultReg` records (R39, R300). -/
inductive FaultRecord where
  | captureCountMismatch (i : Int) (expected got : Nat)
deriving DecidableEq, Repr

/-- The reasons of a refusal (R303). -/
inductive RefusalReason where
  | reservedOp
  | badSlot
  | badOperand
  | slotBusy
  | noCommand
deriving DecidableEq, Repr

/-- The field an OutOfRangeError names (R291). -/
inductive RangeField where
  | slaveAddress
  | registerAddress
  | byteCount
deriving DecidableEq, Repr

/-- The outputs of an `OK` response (R104), as each operation's rule gives them. -/
inductive Outputs where
  /-- `OK()`. -/
  | none
  /-- A bit sequence, index 0 first (TOBITS, FRAME, CMDSF, ADDRSF, DATASF). -/
  | bits (b : List Bit)
  /-- An exact count (SUMBITS). -/
  | count (n : Nat)
  /-- One bit (ODDPAR, ODDPARB). -/
  | bit (p : Bit)
  /-- One byte (DECU). -/
  | byte (d : Byte)
  /-- A payload (RDPAY). -/
  | bytes (ds : List Byte)
  /-- A command's fields (RDCMD, R188). -/
  | command (kind : Kind) (name : Text) (code : BitVec 4) (sa : BitVec 4) (ra : BitVec 8) (bc : BitVec 5)
      (aliasText : Option Text) (phase : Phase)
deriving DecidableEq, Repr

/-- A response (R104). -/
inductive Response where
  | ok (out : Outputs)
  | outOfRange (field : RangeField) (lo hi actual : Int)
  | transportError (info : Text)
deriving DecidableEq, Repr

/-- The outcome of a request (R290). -/
inductive RequestOutcome where
  | response (r : Response)
  | fault (f : FaultRecord)
  | refusal (r : RefusalReason)
deriving DecidableEq, Repr

/-- What the host presents next (R100, R340): a word of the port, or the reset input, applied between requests. -/
inductive PortInput where
  | word (p : PortWord)
  | reset
deriving DecidableEq, Repr

/-- The machine's state. The first four fields are the spec's `S` (R30); the others are the model's own, the block's inputs
and output, held as plain data so that one step is a function of the state (notes/assumptions/1, 2, 3). -/
structure State where
  /-- The command slots; `N_SLOTS` is the list's length (R31, notes/assumptions/4). -/
  slots : List Slot
  /-- `none` is the spec's NONE (R39). -/
  faultReg : Option FaultRecord
  /-- The sticky refusal mark (R40). -/
  refusedMark : Bool
  /-- The transport events, oldest first (R41). -/
  hist : List Event
  /-- MODEL'S OWN: what the host presents, oldest first (R100, R312). -/
  pending : List PortInput
  /-- MODEL'S OWN: the transport's answers to the coming `Burst` calls, oldest first (R250, D25). -/
  burstAnswers : List BurstAnswer
  /-- MODEL'S OWN: the transport's answers to the coming `Capture` calls, oldest first (R251, D25). -/
  captureAnswers : List CaptureAnswer
  /-- MODEL'S OWN: the outcome of the last request, which the block gives back to the host (R104, R290). -/
  lastOutcome : Option RequestOutcome
deriving DecidableEq, Repr

/-- Why the machine stops. -/
inductive Fault where
  /-- A request to a block whose `faultReg` holds a fault: "every later request has no step, until reset" (R257). Raised by
  `whenReady`, so by every operation. Safe: the spec has no step there. -/
  | quiescent
  /-- A transport call that the transport never answers: "stuck: the model has no step" (93_implementation_defined.md I11,
  decision D24). Raised by EXEC when no answer is left. Safe: the spec has no move there. -/
  | transportSilent
deriving DecidableEq, Repr

/-- Why the machine refuses to give an instruction a meaning. -/
inductive Refusal where
  /-- No meaning yet, rejected by name in `exec`'s arm. Raised by no arm of this model. Safe. -/
  | notModelled (mnemonic : String)
  /-- A command word presented as if it were a request: "No operation of the block takes a command word as input" (R118).
  Raised by the two command-word rows of the opcode table and by `step` for a command word of any other code. Safe. -/
  | commandWordNotARequest
deriving DecidableEq, Repr

/-- The state after reset of a block with `n` command slots (R47): every slot EMPTY, `faultReg = NONE`,
`refusedMark = false`, `hist = []`; nothing pending, no answers, no outcome yet (DESIGN CHOICE, notes/assumptions/1, 2, 3). -/
def State.resetWith (n : Nat) : State where
  slots := List.replicate n .empty
  faultReg := none
  refusedMark := false
  hist := []
  pending := []
  burstAnswers := []
  captureAnswers := []
  lastOutcome := none

/-- The machine right after reset (R47), with `Config.nSlots` slots (notes/assumptions/4). -/
def State.reset : State := State.resetWith Config.nSlots

end Sys2Proof.Machine
end

