-- ==== Sys2Proof/Machine/Flags.lean ====
section
/-! DEFINITION. The block has no status flags (10_state.md rule R43). The one check bit it computes is the odd parity of
41_parity.md, which stands here with the bit packer and bit sum it rests on (40_bitfield.md). -/

namespace Sys2Proof.Machine

/-- `TOBITS(v, w)`'s value (R140): bit `i` of the sequence is `(v div 2^(w-1-i)) mod 2`. -/
def toBits (v w : Nat) : List Bit :=
  (List.range w).map fun i => v / 2 ^ (w - 1 - i) % 2 == 1

/-- `SUMBITS(b)`'s value (R145): the number of set bits. -/
def sumBits (b : List Bit) : Nat := (b.map Bool.toNat).sum

/-- `ODDPAR(b)`'s value (R160): 1 if the number of set bits is even, 0 if odd. -/
def oddParity (b : List Bit) : Bit := sumBits b % 2 == 0

/-- `ODDPARB(bytes)`'s value (R165): the odd parity of the per-byte odd parities. -/
def oddParityBytes (bytes : List Byte) : Bit :=
  oddParity (bytes.map fun d => oddParity (toBits d.toNat 8))

/-- The value of a bit sequence read most significant bit first (R13, R141). -/
def bitsValue (b : List Bit) : Nat := b.foldl (fun acc x => 2 * acc + x.toNat) 0

end Sys2Proof.Machine
end

