-- ==== Sys2Proof/Machine/Operands.lean ====
section
/-! DEFINITION. Operands and formats: reading operand lists (30_encoding.md rules R102, R103), the variants' hardwired
properties (10_state.md rule R38), the register-level codes (R32, R33, R104, R291), validation (42_command.md rule R180), the frame assembler
(43_frame.md) and the capture decoder's byte (44_execute.md rule R259). -/

namespace Sys2Proof.Machine

/-- One list element as a byte, if it is in 0 to 255 (R102). -/
def byteOfInt (x : Int) : Option Byte :=
  if 0 ≤ x ∧ x ≤ 255 then some (BitVec.ofNat 8 x.toNat) else none

/-- One list element as a bit, if it is 0 or 1 (R102). -/
def bitOfInt (x : Int) : Option Bit :=
  if x = 0 then some false else if x = 1 then some true else none

/-- A list of bytes, if every element is one (R102). -/
def bytesOfInts : List Int → Option (List Byte)
  | [] => some []
  | x :: xs =>
    match byteOfInt x, bytesOfInts xs with
    | some d, some ds => some (d :: ds)
    | _, _ => none

/-- A list of bits, if every element is one (R102). -/
def bitsOfInts : List Int → Option (List Bit)
  | [] => some []
  | x :: xs =>
    match bitOfInt x, bitsOfInts xs with
    | some b, some bs => some (b :: bs)
    | _, _ => none

/-- The variant's symbolic name, the transport's operation identifier (R38, R252). -/
def Kind.name : Kind → Text
  | .erw => Config.nameErw
  | .err => Config.nameErr

/-- The variant's command code (R38). -/
def Kind.commandCode : Kind → BitVec 4
  | .erw => Config.codeErw
  | .err => Config.codeErr

/-- `commandFieldWidth` (R38). -/
def Kind.commandFieldWidth : Kind → Nat
  | .erw => Config.cmdWidth
  | .err => Config.cmdWidth

/-- `registerAddressFieldWidth` (R38). -/
def Kind.registerAddressFieldWidth : Kind → Nat
  | .erw => Config.raWidth
  | .err => Config.raWidth

/-- `byteCountFieldWidth = 8 − commandFieldWidth` (R38). -/
def Kind.byteCountFieldWidth (k : Kind) : Nat := 8 - k.commandFieldWidth

/-- `byteCountLimit = 2^byteCountFieldWidth` (R38). -/
def Kind.byteCountLimit (k : Kind) : Int := 2 ^ k.byteCountFieldWidth

/-- `registerAddressLimit = 2^registerAddressFieldWidth − 1` (R38). -/
def Kind.registerAddressLimit (k : Kind) : Int := 2 ^ k.registerAddressFieldWidth - 1

/-- `commandBits = toBits(commandCode, commandFieldWidth)` (R38). -/
def Kind.commandBits (k : Kind) : List Bit := toBits k.commandCode.toNat k.commandFieldWidth

/-- The bit code of the variant tag (R32). -/
def Kind.code : Kind → BitVec 1
  | .erw => 0#1
  | .err => 1#1

/-- The bit code of a phase (R33). -/
def Phase.code : Phase → BitVec 2
  | .empty => 0#2
  | .constructed => 1#2
  | .executed => 2#2
  | .failed => 3#2

/-- A held command's phase among the four of R33. -/
def HeldPhase.toPhase : HeldPhase → Phase
  | .constructed => .constructed
  | .executed => .executed
  | .failed => .failed

/-- `slot[i].phase` (R32). -/
def Slot.phase : Slot → Phase
  | .empty => .empty
  | .held p _ => p.toPhase

/-- The code of the field an OutOfRangeError names (R291). -/
def RangeField.code : RangeField → Nat
  | .slaveAddress => 0
  | .registerAddress => 1
  | .byteCount => 2

/-- The kind code of a response (R104). -/
def Response.kindCode : Response → Nat
  | .ok _ => 0
  | .outOfRange _ _ _ _ => 1
  | .transportError _ => 2

/-- `Validate(sa, ra, bc)` (R180): the first failing check, in the order slave address, register address, byte count
(R181), or none. -/
def validate (k : Kind) (sa ra bc : Int) : Option Response :=
  if ¬ (0 ≤ sa ∧ sa ≤ Config.saLimit) then some (.outOfRange .slaveAddress 0 Config.saLimit sa)
  else if ¬ (0 ≤ ra ∧ ra ≤ k.registerAddressLimit) then
    some (.outOfRange .registerAddress 0 k.registerAddressLimit ra)
  else if ¬ (1 ≤ bc ∧ bc ≤ k.byteCountLimit) then some (.outOfRange .byteCount 1 k.byteCountLimit bc)
  else none

/-- The command that a construction puts into its slot once `validate` has passed (R184, R185). -/
def newCommand (k : Kind) (sa ra bc : Int) (payload : List Byte) (a : Option Text) : Command where
  kind := k
  sa := BitVec.ofInt 4 sa
  ra := BitVec.ofInt 8 ra
  bc := BitVec.ofInt 5 bc
  payload := payload
  aliasText := a

/-- The command word's bits `cw = toBits(sa, 4) ++ commandBits ++ toBits(bc − 1, 4)` (R110). -/
def commandWordBits (c : Command) : List Bit :=
  toBits c.sa.toNat Config.saWidth ++ c.kind.commandBits ++ toBits (c.bc.toNat - 1) c.kind.byteCountFieldWidth

/-- The command word as a 12-bit value (R110). -/
def commandWord (c : Command) : BitVec 12 := BitVec.ofNat 12 (bitsValue (commandWordBits c))

/-- `CmdSubFrame(c)` (R220, R112): the slave-address and byte-count bits, then the parity of the whole command word; the
command code's bits are not emitted (90_conflicts.md C2). -/
def cmdSubFrame (c : Command) : List Bit :=
  toBits c.sa.toNat Config.saWidth ++ toBits (c.bc.toNat - 1) c.kind.byteCountFieldWidth
    ++ [oddParity (commandWordBits c)]

/-- Eight bits of a byte and their odd parity: the unit of R113 and R114. -/
def byteUnit (d : Nat) : List Bit := toBits d 8 ++ [oddParity (toBits d 8)]

/-- `AddrSubFrame(c)` (R225, R113): the address bytes, most significant first. -/
def addrSubFrame (c : Command) : List Bit :=
  (List.range Config.raBytes).reverse.flatMap fun j => byteUnit (c.ra.toNat / 2 ^ (8 * j) % 256)

/-- `DataSubFrame(c)` (R230, R114): one unit per payload byte of a write, in payload order; nothing for a read. -/
def dataSubFrame (c : Command) : List Bit :=
  match c.kind with
  | .err => []
  | .erw => c.payload.flatMap fun d => byteUnit d.toNat

/-- `Frame(c)` (R235, R115): command, address, data. -/
def frame (c : Command) : List Bit := cmdSubFrame c ++ addrSubFrame c ++ dataSubFrame c

/-- `DECU(u)`'s value (R259): the first eight bits of the unit as a byte, most significant first; the parity bit `u_8` is
not looked at (R258). -/
def dataPortion (u : List Bit) : Byte := BitVec.ofNat 8 (bitsValue (u.take 8))

/-- The bits `u[0 … 8]` of a captured unit (R116). -/
def unitBits (u : CapturedUnit) : List Bit := toBits u.toNat Config.unitWidth

/-- The byte taken from a captured unit (R256, R259). -/
def capturedByte (u : CapturedUnit) : Byte := dataPortion (unitBits u)

end Sys2Proof.Machine
end

