-- ==== Sys2Proof/Machine/Ops.lean ====
section
/-! DEFINITION. The operations the meanings share: slot access (42_command.md, 43_frame.md `SlotGuard`), the ways a request
ends (60_exceptions.md rules R290 to R303), the transport calls (44_execute.md rules R250, R251), reset (70_reset_and_hazards.md
rule R340). -/

namespace Sys2Proof.Machine

/-- `slot[i]`, where `0 ≤ i < N_SLOTS` (R102); none for an index outside. -/
def State.slotAt (s : State) (i : Int) : Option Slot :=
  if 0 ≤ i then s.slots[i.toNat]? else none

/-- `slot[i] <- x`. -/
def State.setSlot (s : State) (i : Int) (x : Slot) : State :=
  { s with slots := s.slots.set i.toNat x }

/-- The request's outcome goes back to the host (R104, R290, notes/assumptions/2). -/
def State.answered (s : State) (o : RequestOutcome) : State := { s with lastOutcome := some o }

/-- A refusal (R303): sets `refusedMark`, and has no other effect. -/
def State.refusedWith (s : State) (r : RefusalReason) : State :=
  { s with refusedMark := true, lastOutcome := some (.refusal r) }

/-- A model fault (R300, R257): `faultReg` records it. -/
def State.faultedWith (s : State) (f : FaultRecord) : State :=
  { s with faultReg := some f, lastOutcome := some (.fault f) }

/-- The request ends in a response (R104). An error response saves no state and transfers no control (R308). -/
def respond (r : Response) (s : State) : Host.Outcome State Fault Refusal := .next (s.answered (.response r))

/-- The request ends in a refusal (R303). The block goes on (notes/assumptions/7). -/
def refuse (r : RefusalReason) (s : State) : Host.Outcome State Fault Refusal := .next (s.refusedWith r)

/-- The request ends in a model fault (R300). The state records it; the requests after it have no step (`whenReady`). -/
def recordFault (f : FaultRecord) (s : State) : Host.Outcome State Fault Refusal := .next (s.faultedWith f)

/-- A faulted block is quiescent: "it takes no further request" until reset (R257, R300). -/
def whenReady (s : State) (k : Host.Outcome State Fault Refusal) : Host.Outcome State Fault Refusal :=
  match s.faultReg with
  | none => k
  | some _ => .fault .quiescent

/-- `SlotGuard(i)` (43_frame.md): BadSlot, then NoCommand, then the held command. -/
def onHeld (i : Int) (s : State) (k : HeldPhase → Command → Host.Outcome State Fault Refusal) :
    Host.Outcome State Fault Refusal :=
  match s.slotAt i with
  | none => refuse .badSlot s
  | some .empty => refuse .noCommand s
  | some (.held p c) => k p c

/-- An operation that reads a held command and answers from it, changing nothing else (R80). -/
def answerFromHeld (i : Int) (s : State) (out : HeldPhase → Command → Outputs) : Host.Outcome State Fault Refusal :=
  whenReady s (onHeld i s fun p c => respond (.ok (out p c)) s)

/-- Validation and the write of a new command into slot `i`, which is EMPTY (R184, R185). -/
def constructIn (i : Int) (k : Kind) (sa ra bc : Int) (payload : List Byte) (a : Option Text) (s : State) :
    Host.Outcome State Fault Refusal :=
  match validate k sa ra bc with
  | some e => respond e s
  | none => respond (.ok .none) (s.setSlot i (.held .constructed (newCommand k sa ra bc payload a)))

/-- `Burst(bus, name, frame, T)` (R250): takes the transport's answer and appends one event. None where the transport has
no answer left (notes/assumptions/3). -/
def callBurst (bus : Int) (name : Text) (fr : List Bit) (timeout : Duration) (s : State) :
    Option (BurstAnswer × State) :=
  match s.burstAnswers with
  | [] => none
  | r :: rest =>
    some (r, { s with burstAnswers := rest, hist := s.hist ++ [.burst bus name fr timeout r] })

/-- `Capture(bus, name, n, T)` (R251): takes the transport's answer and appends one event. -/
def callCapture (bus : Int) (name : Text) (n : Nat) (timeout : Duration) (s : State) :
    Option (CaptureAnswer × State) :=
  match s.captureAnswers with
  | [] => none
  | q :: rest =>
    some (q, { s with captureAnswers := rest, hist := s.hist ++ [.capture bus name n timeout q] })

/-- The `EXEC` of the ERW command `c` held in slot `i` (R254). -/
def executeWrite (i : Int) (c : Command) (bus : Int) (timeout : Duration) (s : State) :
    Host.Outcome State Fault Refusal :=
  match callBurst bus (Kind.name .erw) (frame c) timeout s with
  | none => .fault .transportSilent
  | some (.fail info, s1) => respond (.transportError info) (s1.setSlot i (.held .failed c))
  | some (.ok, s1) => respond (.ok .none) (s1.setSlot i (.held .executed c))

/-- The capture half of the `EXEC` of an ERR command, after its burst answered `OK` (R256, R257). -/
def captureInto (i : Int) (c : Command) (bus : Int) (timeout : Duration) (s : State) :
    Host.Outcome State Fault Refusal :=
  match callCapture bus (Kind.name .err) c.bc.toNat timeout s with
  | none => .fault .transportSilent
  | some (.fail info, s1) => respond (.transportError info) (s1.setSlot i (.held .failed c))
  | some (.units us, s1) =>
    if us.length ≠ c.bc.toNat then recordFault (.captureCountMismatch i c.bc.toNat us.length) s1
    else respond (.ok .none) (s1.setSlot i (.held .executed { c with payload := us.map capturedByte }))

/-- The `EXEC` of the ERR command `c` held in slot `i` (R256). -/
def executeRead (i : Int) (c : Command) (bus : Int) (timeout : Duration) (s : State) :
    Host.Outcome State Fault Refusal :=
  match callBurst bus (Kind.name .err) (frame c) timeout s with
  | none => .fault .transportSilent
  | some (.fail info, s1) => respond (.transportError info) (s1.setSlot i (.held .failed c))
  | some (.ok, s1) => captureInto i c bus timeout s1

/-- The reset input (R340): the block's state goes to its reset values, with the slots it has. The host's and the transport's
pending inputs are outside the block and stay (notes/assumptions/1). -/
def applyReset (s : State) : State :=
  { s with
    slots := List.replicate s.slots.length .empty
    faultReg := none
    refusedMark := false
    hist := []
    lastOutcome := none }

/-- The refusal of a request whose operands are not the operand record of its operation (R103, notes/assumptions/8): a slot
operation with an integer slot index outside `0 … N_SLOTS − 1` is BadSlot, which comes first (R307); otherwise an operand is
outside its type, BadOperand. -/
def malformedReason (op : BitVec 4) (operands : List OperandValue) (s : State) : RefusalReason :=
  match operands with
  | .int i :: _ =>
    if 1 ≤ op.toNat ∧ op.toNat ≤ 10 ∧ s.slotAt i = none then .badSlot else .badOperand
  | _ => .badOperand

/-- What happens to a word that decodes to no instruction: a malformed request is refused (R103), a command word is no
request of the block (R118). -/
def rejectWord (p : PortWord) (s : State) : Host.Outcome State Fault Refusal :=
  match p with
  | .request op operands => whenReady s (refuse (malformedReason op operands s) s)
  | .commandWord _ => .refused .commandWordNotARequest

end Sys2Proof.Machine
end

