-- ==== Sys2Proof/Machine/BitField.lean ====
section
/-! DEFINITION. The bit-field packer's operations (40_bitfield.md). -/

namespace Sys2Proof.Machine

/-- `TOBITS v, w` (R140). -/
def execTobits (v w : Int) (s : State) : Host.Outcome State Fault Refusal :=
  whenReady s
    (if v < 0 ∨ w < 1 ∨ w > Config.tobitsWmax then refuse .badOperand s
     else respond (.ok (.bits (toBits v.toNat w.toNat))) s)

/-- `SUMBITS b` (R145); an element that is no bit is refused (R103). -/
def execSumbits (b : List Int) (s : State) : Host.Outcome State Fault Refusal :=
  whenReady s
    (match bitsOfInts b with
     | none => refuse .badOperand s
     | some bs => respond (.ok (.count (sumBits bs))) s)

end Sys2Proof.Machine
end

