-- ==== Sys2Proof/Machine/Command.lean ====
section
/-! DEFINITION. Command construction, the accessors and discard (42_command.md). -/

namespace Sys2Proof.Machine

/-- `CONSTRUCT_ERW i, sa, ra, payload, alias` (R184): slot index, payload type, slot occupancy, validation (R186); the byte
count is the payload's length (R183). -/
def execConstructErw (i sa ra : Int) (payload : List Int) (a : Option Text) (s : State) :
    Host.Outcome State Fault Refusal :=
  whenReady s
    (match s.slotAt i, bytesOfInts payload with
     | none, _ => refuse .badSlot s
     | some _, none => refuse .badOperand s
     | some (.held _ _), some _ => refuse .slotBusy s
     | some .empty, some ds => constructIn i .erw sa ra payload.length ds a s)

/-- `CONSTRUCT_ERR i, sa, ra, bc, alias` (R185): slot index, slot occupancy, validation (R186); the caller supplies the byte
count (R183), and the payload starts empty. -/
def execConstructErr (i sa ra bc : Int) (a : Option Text) (s : State) : Host.Outcome State Fault Refusal :=
  whenReady s
    (match s.slotAt i with
     | none => refuse .badSlot s
     | some (.held _ _) => refuse .slotBusy s
     | some .empty => constructIn i .err sa ra bc [] a s)

/-- `RDCMD i` (R188). -/
def execRdcmd (i : Int) (s : State) : Host.Outcome State Fault Refusal :=
  answerFromHeld i s fun p c =>
    .command c.kind c.kind.name c.kind.commandCode c.sa c.ra c.bc c.aliasText p.toPhase

/-- `RDPAY i` (R189). -/
def execRdpay (i : Int) (s : State) : Host.Outcome State Fault Refusal :=
  answerFromHeld i s fun _ c => .bytes c.payload

/-- `DISC i` (R190). -/
def execDisc (i : Int) (s : State) : Host.Outcome State Fault Refusal :=
  whenReady s (onHeld i s fun _ _ => respond (.ok .none) (s.setSlot i .empty))

end Sys2Proof.Machine
end

