-- ==== Sys2Proof/Machine/Execute.lean ====
section
/-! DEFINITION. Execution of a held command and the capture decoder's operation (44_execute.md). -/

namespace Sys2Proof.Machine

/-- `EXEC i, bus, T`: R254 where slot `i` holds an ERW, R256 where it holds an ERR, the same from every phase (R262). -/
def execExec (i bus : Int) (timeout : Duration) (s : State) : Host.Outcome State Fault Refusal :=
  whenReady s
    (onHeld i s fun _ c =>
      match c.kind with
      | .erw => executeWrite i c bus timeout s
      | .err => executeRead i c bus timeout s)

/-- `DECU u` (R259); an element that is no bit, or a length other than 9, is refused (R103). -/
def execDecu (u : List Int) (s : State) : Host.Outcome State Fault Refusal :=
  whenReady s
    (match bitsOfInts u with
     | none => refuse .badOperand s
     | some bs =>
       if bs.length ≠ Config.unitWidth then refuse .badOperand s else respond (.ok (.byte (dataPortion bs))) s)

end Sys2Proof.Machine
end

