-- ==== Sys2Proof/Machine/Frame.lean ====
section
/-! DEFINITION. The frame assembler's operations (43_frame.md). -/

namespace Sys2Proof.Machine

/-- `FRAME i` (R235). -/
def execFrame (i : Int) (s : State) : Host.Outcome State Fault Refusal :=
  answerFromHeld i s fun _ c => .bits (frame c)

/-- `CMDSF i` (R220). -/
def execCmdsf (i : Int) (s : State) : Host.Outcome State Fault Refusal :=
  answerFromHeld i s fun _ c => .bits (cmdSubFrame c)

/-- `ADDRSF i` (R225). -/
def execAddrsf (i : Int) (s : State) : Host.Outcome State Fault Refusal :=
  answerFromHeld i s fun _ c => .bits (addrSubFrame c)

/-- `DATASF i` (R230). -/
def execDatasf (i : Int) (s : State) : Host.Outcome State Fault Refusal :=
  answerFromHeld i s fun _ c => .bits (dataSubFrame c)

end Sys2Proof.Machine
end

