-- ==== Sys2Proof/Machine/Parity.lean ====
section
/-! DEFINITION. The odd-parity generator's operations (41_parity.md). -/

namespace Sys2Proof.Machine

/-- `ODDPAR b` (R160); an element that is no bit is refused (R103). -/
def execOddpar (b : List Int) (s : State) : Host.Outcome State Fault Refusal :=
  whenReady s
    (match bitsOfInts b with
     | none => refuse .badOperand s
     | some bs => respond (.ok (.bit (oddParity bs))) s)

/-- `ODDPARB bytes` (R165); an element that is no byte is refused (R103). -/
def execOddparb (bytes : List Int) (s : State) : Host.Outcome State Fault Refusal :=
  whenReady s
    (match bytesOfInts bytes with
     | none => refuse .badOperand s
     | some ds => respond (.ok (.bit (oddParityBytes ds))) s)

end Sys2Proof.Machine
end

