-- ==== Sys2Proof/Machine/Reserved.lean ====
section
/-! DEFINITION. The opcode table's rows that are no operation: the reserved code 0x0 (30_encoding.md rule R105) and the two
command words (R110, R118). -/

namespace Sys2Proof.Machine

/-- A request with `op = 0x0` (R105): refused with ReservedOp, which sets `refusedMark` and nothing else (R303). -/
def execReservedOp0 (s : State) : Host.Outcome State Fault Refusal := whenReady s (refuse .reservedOp s)

/-- The command word of an ExtendedRegisterWrite is not a request: "No operation of the block takes a command word as input.
The block only produces one, and only as the input of the parity bit" (R118). -/
def execExtendedRegisterWrite (_sa : BitVec 4) (_bc : BitVec 5) (_s : State) : Host.Outcome State Fault Refusal :=
  .refused .commandWordNotARequest

/-- The command word of an ExtendedRegisterRead is not a request (R118). -/
def execExtendedRegisterRead (_sa : BitVec 4) (_bc : BitVec 5) (_s : State) : Host.Outcome State Fault Refusal :=
  .refused .commandWordNotARequest

end Sys2Proof.Machine
end

