-- ==== Sys2Proof/Machine/Dispatch.lean ====
section
/-! DEFINITION. `exec`: one arm per constructor of `Instr`, each one call of its meaning. -/

namespace Sys2Proof.Machine

def exec (i : Instr) (s : State) : Host.Outcome State Fault Refusal :=
  match i with
  | .constructErw i0 sa ra payload a => Sys2Proof.Machine.execConstructErw i0 sa ra payload a s
  | .constructErr i0 sa ra bc a => Sys2Proof.Machine.execConstructErr i0 sa ra bc a s
  | .exec i0 bus timeout => Sys2Proof.Machine.execExec i0 bus timeout s
  | .frame i0 => Sys2Proof.Machine.execFrame i0 s
  | .cmdsf i0 => Sys2Proof.Machine.execCmdsf i0 s
  | .addrsf i0 => Sys2Proof.Machine.execAddrsf i0 s
  | .datasf i0 => Sys2Proof.Machine.execDatasf i0 s
  | .rdcmd i0 => Sys2Proof.Machine.execRdcmd i0 s
  | .rdpay i0 => Sys2Proof.Machine.execRdpay i0 s
  | .disc i0 => Sys2Proof.Machine.execDisc i0 s
  | .tobits v w => Sys2Proof.Machine.execTobits v w s
  | .sumbits b => Sys2Proof.Machine.execSumbits b s
  | .oddpar b => Sys2Proof.Machine.execOddpar b s
  | .oddparb bytes => Sys2Proof.Machine.execOddparb bytes s
  | .decu u => Sys2Proof.Machine.execDecu u s
  | .reservedOp0 => Sys2Proof.Machine.execReservedOp0 s
  | .extendedRegisterWrite sa bc => Sys2Proof.Machine.execExtendedRegisterWrite sa bc s
  | .extendedRegisterRead sa bc => Sys2Proof.Machine.execExtendedRegisterRead sa bc s

end Sys2Proof.Machine
end

