-- ==== Sys2Proof/Machine/Step.lean ====
section
/-! DEFINITION. One step: the block takes what the host presents next (00_scope.md rule R8, 20_memory.md rule R83). -/

namespace Sys2Proof.Machine

/-- With nothing presented the block idles (notes/assumptions/1). The reset input resets (R340). A word that decodes runs its
instruction as one atomic step (R8, R100); one that does not is rejected. -/
def step (s : State) : Host.Outcome State Fault Refusal :=
  match s.pending with
  | [] => .next s
  | .reset :: rest => .next (applyReset { s with pending := rest })
  | .word p :: rest =>
    match decode p with
    | .ok i => exec i { s with pending := rest }
    | .error _ => rejectWord p { s with pending := rest }

/-- `s` with the table's word presented as the very next input, before whatever else is pending (notes/assumptions/1, 8). A
value that is no word of the table's formats changes nothing. -/
def State.withFetchWord (s : State) (nbits w : Nat) : State :=
  match tableWord nbits w with
  | some p => { s with pending := .word p :: s.pending }
  | none => s

end Sys2Proof.Machine
end

