-- ==== Sys2Proof/Machine/Assembler.lean ====
section
/-! DEFINITION. The textual forms of operations (30_encoding.md rule R122): the written notation of the spec's programs. No
other definition of the machine reads them. -/

namespace Sys2Proof.Machine

/-- An integer in decimal (R122). -/
def asmInt (n : Int) : Text :=
  if n < 0 then '-' :: Nat.toDigits 10 n.natAbs else Nat.toDigits 10 n.natAbs

/-- Items separated by a comma and a space. -/
def asmJoin : List Text → Text
  | [] => []
  | [x] => x
  | x :: rest => x ++ ", ".toList ++ asmJoin rest

/-- A list `[x, y, …]` (R122). -/
def asmList (xs : List Int) : Text := '[' :: asmJoin (xs.map asmInt) ++ [']']

/-- A bit list as a bit string in wire order (R122). -/
def asmBits (xs : List Int) : Text := xs.flatMap asmInt

/-- The slot index, written `s<i>` (R122). -/
def asmSlot (i : Int) : Text := 's' :: asmInt i

/-- The optional trailing alias operand (R122). -/
def asmAlias : Option Text → List Text
  | none => []
  | some t => ["alias=".toList ++ '"' :: t ++ ['"']]

/-- `MNEMONIC operand, operand, …` (R122). -/
def asmForm (mnemonic : Text) (operands : List Text) : Text := mnemonic ++ ' ' :: asmJoin operands

/-- The written form of an operation; the reserved code and the command words have none (R122). -/
def asmInstr : Instr → Option Text
  | .constructErw i sa ra payload a =>
    some (asmForm "CONSTRUCT_ERW".toList
      ([asmSlot i, "sa=".toList ++ asmInt sa, "ra=".toList ++ asmInt ra, "data=".toList ++ asmList payload]
        ++ asmAlias a))
  | .constructErr i sa ra bc a =>
    some (asmForm "CONSTRUCT_ERR".toList
      ([asmSlot i, "sa=".toList ++ asmInt sa, "ra=".toList ++ asmInt ra, "bc=".toList ++ asmInt bc] ++ asmAlias a))
  | .exec i bus timeout =>
    some (asmForm "EXEC".toList [asmSlot i, "bus=".toList ++ asmInt bus, "T=".toList ++ asmInt timeout])
  | .frame i => some (asmForm "FRAME".toList [asmSlot i])
  | .cmdsf i => some (asmForm "CMDSF".toList [asmSlot i])
  | .addrsf i => some (asmForm "ADDRSF".toList [asmSlot i])
  | .datasf i => some (asmForm "DATASF".toList [asmSlot i])
  | .rdcmd i => some (asmForm "RDCMD".toList [asmSlot i])
  | .rdpay i => some (asmForm "RDPAY".toList [asmSlot i])
  | .disc i => some (asmForm "DISC".toList [asmSlot i])
  | .tobits v w => some (asmForm "TOBITS".toList ["v=".toList ++ asmInt v, "w=".toList ++ asmInt w])
  | .sumbits b => some (asmForm "SUMBITS".toList ["b=".toList ++ asmBits b])
  | .oddpar b => some (asmForm "ODDPAR".toList ["b=".toList ++ asmBits b])
  | .oddparb bytes => some (asmForm "ODDPARB".toList ["bytes=".toList ++ asmList bytes])
  | .decu u => some (asmForm "DECU".toList ["u=".toList ++ asmBits u])
  | .reservedOp0 => none
  | .extendedRegisterWrite _ _ => none
  | .extendedRegisterRead _ _ => none

/-- The written form of EXECMANY (R123). -/
def asmExecMany (is : List Int) (bus : Int) (timeout : Duration) : Text :=
  asmForm "EXECMANY".toList
    ['[' :: asmJoin (is.map asmSlot) ++ [']'], "bus=".toList ++ asmInt bus, "T=".toList ++ asmInt timeout]

end Sys2Proof.Machine
end

