-- ==== Sys2Proof/Machine/HostSequence.lean ====
section
/-! DEFINITION. The Bus façade's documented sequencing, host-side programs over the block: `executeOne`, `executeMany` and the
pseudo-operation EXECMANY (30_encoding.md rule R123, 60_exceptions.md rules R313, R314). -/

namespace Sys2Proof.Machine

/-- The last request's outcome is `OK` (R104). -/
def State.lastWasOk (s : State) : Bool :=
  match s.lastOutcome with
  | some (.response (.ok _)) => true
  | _ => false

/-- `executeOne(command)`: one EXEC of the command's slot on the bound bus (R314). -/
def executeOne (i bus : Int) (timeout : Duration) (s : State) : Host.Outcome State Fault Refusal :=
  exec (.exec i bus timeout) s

/-- EXECMANY's expansion (R123): one EXEC per slot, in list order. -/
def expandExecMany (is : List Int) (bus : Int) (timeout : Duration) : List Instr :=
  is.map fun i => .exec i bus timeout

/-- The host issues the requests in order and stops after the first outcome that is not `OK`; nothing is undone (R313). -/
def issueUntilNotOk : List Instr → State → Host.Outcome State Fault Refusal
  | [], s => .next s
  | i :: rest, s =>
    match exec i s with
    | .next t => if t.lastWasOk then issueUntilNotOk rest t else .next t
    | .fault r => .fault r
    | .refused r => .refused r

/-- `executeMany` over an ordered list of slots on bus `bus` (R313). -/
def executeMany (is : List Int) (bus : Int) (timeout : Duration) (s : State) : Host.Outcome State Fault Refusal :=
  issueUntilNotOk (expandExecMany is bus timeout) s

end Sys2Proof.Machine
end

