-- ==== Sys2Proof/Safety.lean ====
section
/-! DEFINITION. What counts as a good state and the invariant of the machine, in the terms the claims use. -/

namespace Sys2Proof.Machine

/-- A good final state: no fault recorded (R39) and no request refused (R40). -/
def State.good (s : State) : Prop := s.faultReg = none ∧ s.refusedMark = false

/-- What a held command's fields satisfy (R32, R35 to R37): a byte count of 1 to 16; a write owns exactly that many bytes; a
read has none before its first EXEC, exactly that many after a successful one, and none or that many after a failed one. -/
def Command.wf (p : HeldPhase) (c : Command) : Prop :=
  1 ≤ c.bc.toNat ∧ c.bc.toNat ≤ 16 ∧
    match c.kind, p with
    | .erw, _ => c.payload.length = c.bc.toNat
    | .err, .constructed => c.payload = []
    | .err, .executed => c.payload.length = c.bc.toNat
    | .err, .failed => c.payload = [] ∨ c.payload.length = c.bc.toNat

/-- A slot is EMPTY or holds a command that satisfies `Command.wf`. -/
def Slot.wf : Slot → Prop
  | .empty => True
  | .held p c => c.wf p

/-- What the history of a block can be since reset (R41, R79, R84, R252, R263): a sequence of writes, one burst each, of reads
whose burst failed, one burst each, and of reads whose burst answered `OK`, that burst directly followed by one capture with
the same bus, name and timeout. -/
inductive TransportLog : List Event → Prop where
  | start : TransportLog []
  | write {h : List Event} {bus : Int} {fr : List Bit} {timeout : Duration} {r : BurstAnswer} (before : TransportLog h)
      (n : Nat) (low : 1 ≤ n) (high : n ≤ 16) (length : fr.length = 18 + 9 * n) :
      TransportLog (h ++ [.burst bus Config.nameErw fr timeout r])
  | readNotBurst {h : List Event} {bus : Int} {fr : List Bit} {timeout : Duration} {info : Text} (before : TransportLog h)
      (length : fr.length = 18) : TransportLog (h ++ [.burst bus Config.nameErr fr timeout (.fail info)])
  | read {h : List Event} {bus : Int} {fr : List Bit} {timeout : Duration} {n : Nat} {q : CaptureAnswer}
      (before : TransportLog h) (length : fr.length = 18) (low : 1 ≤ n) (high : n ≤ 16) :
      TransportLog (h ++ [.burst bus Config.nameErr fr timeout .ok, .capture bus Config.nameErr n timeout q])

/-- What `faultReg` says is so (R257): the slot still holds a read of `expected` bytes, another number of units came, and the
history ends with that capture. -/
def State.faultRecorded (s : State) : Prop :=
  ∀ i expected got, s.faultReg = some (.captureCountMismatch i expected got) →
    got ≠ expected ∧
    (∃ p c, s.slotAt i = some (.held p c) ∧ c.kind = .err ∧ c.bc.toNat = expected) ∧
    ∃ h bus timeout us, s.hist = h ++ [.capture bus Config.nameErr expected timeout (.units us)] ∧ us.length = got

/-- The invariant of the block. -/
structure State.Inv (s : State) : Prop where
  /-- `N_SLOTS ≥ 1` (R31). -/
  someSlot : 1 ≤ s.slots.length
  slotsWf : ∀ x ∈ s.slots, x.wf
  log : TransportLog s.hist
  fault : s.faultRecorded

end Sys2Proof.Machine
end

