-- ==== Sys2Proof/Certificates/Slice0/Obligations.lean ====
section
/-! DEFINITION. The statements about the machine. Each states the spec's rule in its own terms (bit indices, sums, counts), not
in the terms of the definition it is about. A response is read from `lastOutcome` (notes/assumptions/2) and a refusal or a model fault is a
next state (notes/assumptions/7); the exact next state is also the instruction's frame. Every statement about every state holds for every
number of slots and for every list of transport answers. -/

namespace Sys2Proof.Spec

open Sys2Proof.Machine

/-- The state after an operation that answers `OK(o)` and does nothing else. -/
def okState (s : State) (o : Outputs) : State := { s with lastOutcome := some (.response (.ok o)) }

/-- The state after a refusal for reason `r` (R303). -/
def refusedState (s : State) (r : RefusalReason) : State :=
  { s with refusedMark := true, lastOutcome := some (.refusal r) }

/-- The slot index names a slot (R102). -/
def inRange (s : State) (i : Int) : Prop := 0 ≤ i ∧ i < s.slots.length

/-- Slot `i` exists and is `x`. -/
def holds (s : State) (i : Int) (x : Slot) : Prop := 0 ≤ i ∧ s.slots[i.toNat]? = some x

/-- How many of the low `w` bits of `n` are set. -/
def setBits (n w : Nat) : Nat := (List.range w).countP fun j => n.testBit j

/-- `b` is the low `w` bits of `n`, most significant first (R13). -/
def msbFirst (n w : Nat) (b : List Bit) : Prop := b.length = w ∧ ∀ k < w, b[k]? = some (n.testBit (w - 1 - k))

/-- How many bits of the list are set. -/
def ones (b : List Bit) : Nat := b.count true

/-- `u` is the 9-bit unit of byte `d`: its bits, most significant first, then its odd-parity bit (R113, R114). -/
def unitOf (d : Nat) (u : List Bit) : Prop :=
  ∃ b, msbFirst d 8 b ∧ u = b ++ [decide (setBits d 8 % 2 = 0)]

/-- The integers an operand list carries for these bits. -/
def asInts (b : List Bit) : List Int := b.map fun x => if x then 1 else 0

/-- Every element is a bit (R102). -/
def allBits (b : List Int) : Prop := ∀ x ∈ b, x = 0 ∨ x = 1

/-- Every element is a byte (R102). -/
def allBytes (b : List Int) : Prop := ∀ x ∈ b, 0 ≤ x ∧ x ≤ 255

/-- The error of a construction request, if any: the first failing field of slave address, register address, byte count, with
its bounds and the offending value (R180, R181). -/
def firstBadField (sa ra bc : Int) : Option Response :=
  if sa < 0 ∨ 15 < sa then some (.outOfRange .slaveAddress 0 15 sa)
  else if ra < 0 ∨ 255 < ra then some (.outOfRange .registerAddress 0 255 ra)
  else if bc < 1 ∨ 16 < bc then some (.outOfRange .byteCount 1 16 bc)
  else none

/-- An operation on a held command: refused with BadSlot for an index that names no slot and with NoCommand for an EMPTY slot;
otherwise it goes to the next state that `result` relates to the phase, the command, the slot index and the state. -/
def slotGuarded (mk : Int → Instr) (result : HeldPhase → Command → Int → State → State → Prop) : Prop :=
  ∀ (i : Int) (s : State), s.faultReg = none →
    (¬ inRange s i → exec (mk i) s = .next (refusedState s .badSlot)) ∧
    (holds s i .empty → exec (mk i) s = .next (refusedState s .noCommand)) ∧
    ∀ p c, holds s i (.held p c) → ∃ t, exec (mk i) s = .next t ∧ result p c i s t

/-- The slot index an operation names, if it names one (R101). -/
def slotOperand : Instr → Option Int
  | .constructErw i _ _ _ _ => some i
  | .constructErr i _ _ _ _ => some i
  | .exec i _ _ => some i
  | .frame i => some i
  | .cmdsf i => some i
  | .addrsf i => some i
  | .datasf i => some i
  | .rdcmd i => some i
  | .rdpay i => some i
  | .disc i => some i
  | .tobits _ _ => none
  | .sumbits _ => none
  | .oddpar _ => none
  | .oddparb _ => none
  | .decu _ => none
  | .reservedOp0 => none
  | .extendedRegisterWrite _ _ => none
  | .extendedRegisterRead _ _ => none

/-- The instruction is one of the two constructions. -/
def isConstruct (i : Instr) : Prop :=
  (∃ n sa ra bs a, i = .constructErw n sa ra bs a) ∨ ∃ n sa ra bc a, i = .constructErr n sa ra bc a

/-- Where a refusal reason applies (the table of R303). -/
def applies (r : RefusalReason) (i : Instr) (s : State) : Prop :=
  match r with
  | .reservedOp => i = .reservedOp0
  | .badSlot => ∃ n, slotOperand i = some n ∧ ¬ inRange s n
  | .badOperand => i.isRequest = true ∧ i.wellFormed = false
  | .slotBusy => isConstruct i ∧ ∃ n p c, slotOperand i = some n ∧ holds s n (.held p c)
  | .noCommand => ¬ isConstruct i ∧ ∃ n, slotOperand i = some n ∧ holds s n .empty

/-- R307's order of the refusal reasons. -/
def precedence : RefusalReason → Nat
  | .reservedOp => 1
  | .badSlot => 2
  | .badOperand => 3
  | .slotBusy => 4
  | .noCommand => 4

/-- The same command with another alias. -/
def relabel (a : Option Text) : Slot → Slot
  | .empty => .empty
  | .held p c => .held p { c with aliasText := a }

/-- The same outcome with another alias in an RDCMD answer. -/
def relabelOutcome (a : Option Text) : RequestOutcome → RequestOutcome
  | .response (.ok (.command k n code sa ra bc _ p)) => .response (.ok (.command k n code sa ra bc a p))
  | o => o

/-- The same state with every alias replaced. -/
def relabelState (a : Option Text) (s : State) : State :=
  { s with slots := s.slots.map (relabel a), lastOutcome := s.lastOutcome.map (relabelOutcome a) }

/-- The same instruction with another alias operand. -/
def relabelInstr (a : Option Text) : Instr → Instr
  | .constructErw i sa ra payload _ => .constructErw i sa ra payload a
  | .constructErr i sa ra bc _ => .constructErr i sa ra bc a
  | i => i

/-- The event without its bus and timeout. -/
def eventCore : Event → Event
  | .burst _ name fr _ r => .burst 0 name fr 0 r
  | .capture _ name n _ q => .capture 0 name n 0 q

/-- The state with the history's buses and timeouts left out. -/
def withoutRouting (s : State) : State := { s with hist := s.hist.map eventCore }

end Sys2Proof.Spec

open Sys2Proof Sys2Proof.Machine Sys2Proof.Spec

/-! ### The bit-field packer and the odd-parity generator (40_bitfield.md, 41_parity.md) -/

/-- R140. -/
def Obligations.TobitsPacksOrRefuses : Prop :=
  ∀ (v w : Int) (s : State), s.faultReg = none →
    (0 ≤ v → 1 ≤ w → w ≤ 16 →
      ∃ b, exec (.tobits v w) s = .next (okState s (.bits b)) ∧ b.length = w.toNat ∧
        ∀ k < w.toNat, b[k]? = some (decide (v.toNat / 2 ^ (w.toNat - 1 - k) % 2 = 1))) ∧
    (v < 0 ∨ w < 1 ∨ 16 < w → exec (.tobits v w) s = .next (refusedState s .badOperand))

/-- R141. -/
def Obligations.TobitsReassemblesTheValue : Prop :=
  ∀ (v w : Int) (s : State), s.faultReg = none → 0 ≤ v → 1 ≤ w → w ≤ 16 →
    ∃ b, exec (.tobits v w) s = .next (okState s (.bits b)) ∧ b.length = w.toNat ∧
      ((List.range w.toNat).map fun k => (b.getD k false).toNat * 2 ^ (w.toNat - 1 - k)).sum = v.toNat % 2 ^ w.toNat

/-- R145; a list with an element that is no bit is refused with BadOperand (R103). -/
def Obligations.SumbitsCountsOrRefuses : Prop :=
  ∀ (b : List Int) (s : State), s.faultReg = none →
    (allBits b → ∃ n, exec (.sumbits b) s = .next (okState s (.count n)) ∧ (n : Int) = b.sum ∧ n ≤ b.length) ∧
    (¬ allBits b → exec (.sumbits b) s = .next (refusedState s .badOperand))

/-- R160; a list with an element that is no bit is refused with BadOperand (R103). -/
def Obligations.OddparAnswersOneForEvenCounts : Prop :=
  ∀ (b : List Int) (s : State), s.faultReg = none →
    (allBits b → exec (.oddpar b) s = .next (okState s (.bit (decide (b.sum % 2 = 0))))) ∧
    (¬ allBits b → exec (.oddpar b) s = .next (refusedState s .badOperand))

/-- R161. -/
def Obligations.OddparMakesTheTotalOdd : Prop :=
  ∀ (b : List Bit) (s : State), s.faultReg = none →
    ∃ p, exec (.oddpar (asInts b)) s = .next (okState s (.bit p)) ∧ ones (b ++ [p]) % 2 = 1

/-- The spec marks R162 as derived from R160. -/
def Obligations.OddparIsTheXorOfTheBits : Prop :=
  ∀ (b : List Bit) (s : State), s.faultReg = none →
    exec (.oddpar (asInts b)) s = .next (okState s (.bit (b.foldl Bool.xor true)))

/-- R165; a list with an element that is no byte is refused with BadOperand (R103). -/
def Obligations.OddparbIsTheParityOfTheByteParities : Prop :=
  ∀ (bytes : List Int) (s : State), s.faultReg = none →
    (allBytes bytes →
      exec (.oddparb bytes) s
        = .next (okState s (.bit (decide (bytes.countP (fun d : Int => setBits d.toNat 8 % 2 = 0) % 2 = 0))))) ∧
    (¬ allBytes bytes → exec (.oddparb bytes) s = .next (refusedState s .badOperand))

/-- The spec marks R166 as derived from R162 and R165: the byte form against the bit form over the concatenated bits. -/
def Obligations.OddparbAgainstTheConcatenatedBits : Prop :=
  ∀ (ds : List Byte) (s : State), s.faultReg = none →
    ∃ p q, exec (.oddparb (ds.map fun d => (d.toNat : Int))) s = .next (okState s (.bit p)) ∧
      exec (.oddpar (asInts (ds.flatMap fun d => (List.range 8).map fun k => d.getLsbD (7 - k)))) s
        = .next (okState s (.bit q)) ∧
      p = Bool.xor q (decide (ds.length % 2 = 1))

/-- R259 without its inverse clause, which the spec marks as derived. -/
def Obligations.DecuTakesTheDataPortion : Prop :=
  ∀ (u : List Int) (s : State), s.faultReg = none →
    (∀ u0 u1 u2 u3 u4 u5 u6 u7 u8, u = [u0, u1, u2, u3, u4, u5, u6, u7, u8] → allBits u →
      ∃ d : Byte, exec (.decu u) s = .next (okState s (.byte d)) ∧
        (d.toNat : Int) = u0 * 2 ^ 7 + u1 * 2 ^ 6 + u2 * 2 ^ 5 + u3 * 2 ^ 4 + u4 * 2 ^ 3 + u5 * 2 ^ 2 + u6 * 2 + u7) ∧
    (u.length ≠ 9 ∨ ¬ allBits u → exec (.decu u) s = .next (refusedState s .badOperand))

/-- The inverse clause of R259, which the spec marks as derived: the bits TOBITS answers for a byte, with any parity bit
after them, give the byte back. -/
def Obligations.DecuUndoesTobits : Prop :=
  ∀ (d : Byte) (p : Bit) (s : State), s.faultReg = none →
    ∃ b, exec (.tobits d.toNat 8) s = .next (okState s (.bits b)) ∧
      exec (.decu (asInts (b ++ [p]))) s = .next (okState s (.byte d))

/-! ### Construction, accessors, discard (42_command.md) -/

/-- R184: the whole of CONSTRUCT_ERW, its checks in the order of R186. -/
def Obligations.ConstructErwFollowsItsRule : Prop :=
  ∀ (i sa ra : Int) (payload : List Int) (a : Option Text) (s : State), s.faultReg = none →
    (¬ inRange s i → exec (.constructErw i sa ra payload a) s = .next (refusedState s .badSlot)) ∧
    (inRange s i → ¬ allBytes payload →
      exec (.constructErw i sa ra payload a) s = .next (refusedState s .badOperand)) ∧
    (∀ p c, holds s i (.held p c) → allBytes payload →
      exec (.constructErw i sa ra payload a) s = .next (refusedState s .slotBusy)) ∧
    (∀ e, holds s i .empty → allBytes payload → firstBadField sa ra payload.length = some e →
      exec (.constructErw i sa ra payload a) s = .next { s with lastOutcome := some (.response e) }) ∧
    (holds s i .empty → allBytes payload → firstBadField sa ra payload.length = none →
      ∃ c : Command, exec (.constructErw i sa ra payload a) s
          = .next { okState s .none with slots := s.slots.set i.toNat (.held .constructed c) } ∧
        c.kind = .erw ∧ (c.sa.toNat : Int) = sa ∧ (c.ra.toNat : Int) = ra ∧ c.bc.toNat = payload.length ∧
        c.payload.map (fun d => (d.toNat : Int)) = payload ∧ c.aliasText = a)

/-- R185: the whole of CONSTRUCT_ERR. -/
def Obligations.ConstructErrFollowsItsRule : Prop :=
  ∀ (i sa ra bc : Int) (a : Option Text) (s : State), s.faultReg = none →
    (¬ inRange s i → exec (.constructErr i sa ra bc a) s = .next (refusedState s .badSlot)) ∧
    (∀ p c, holds s i (.held p c) → exec (.constructErr i sa ra bc a) s = .next (refusedState s .slotBusy)) ∧
    (∀ e, holds s i .empty → firstBadField sa ra bc = some e →
      exec (.constructErr i sa ra bc a) s = .next { s with lastOutcome := some (.response e) }) ∧
    (holds s i .empty → firstBadField sa ra bc = none →
      ∃ c : Command, exec (.constructErr i sa ra bc a) s
          = .next { okState s .none with slots := s.slots.set i.toNat (.held .constructed c) } ∧
        c.kind = .err ∧ (c.sa.toNat : Int) = sa ∧ (c.ra.toNat : Int) = ra ∧ (c.bc.toNat : Int) = bc ∧
        c.payload = [] ∧ c.aliasText = a)

/-- R180, R181, R183: both variants check slave address, register address and byte count in that order and report the first that
fails; a write's byte count is its payload's length, a read's is the operand. -/
def Obligations.ConstructionNamesTheFirstBadField : Prop :=
  ∀ (i sa ra bc : Int) (payload : List Int) (a : Option Text) (s : State) (request : Instr),
    s.faultReg = none → holds s i .empty →
    (request = .constructErw i sa ra payload a ∧ allBytes payload ∧ bc = payload.length ∨
      request = .constructErr i sa ra bc a) →
    ∃ t, exec request s = .next t ∧
      (¬ (0 ≤ sa ∧ sa ≤ 15) → t.lastOutcome = some (.response (.outOfRange .slaveAddress 0 15 sa))) ∧
      ((0 ≤ sa ∧ sa ≤ 15) → ¬ (0 ≤ ra ∧ ra ≤ 255) →
        t.lastOutcome = some (.response (.outOfRange .registerAddress 0 255 ra))) ∧
      ((0 ≤ sa ∧ sa ≤ 15) → (0 ≤ ra ∧ ra ≤ 255) → ¬ (1 ≤ bc ∧ bc ≤ 16) →
        t.lastOutcome = some (.response (.outOfRange .byteCount 1 16 bc))) ∧
      ((0 ≤ sa ∧ sa ≤ 15) → (0 ≤ ra ∧ ra ≤ 255) → (1 ≤ bc ∧ bc ≤ 16) → t.lastOutcome = some (.response (.ok .none)))

/-- R188. -/
def Obligations.RdcmdReadsTheFields : Prop :=
  slotGuarded .rdcmd fun p c _ s t =>
    t = okState s (.command c.kind (match c.kind with | .erw => Config.nameErw | .err => Config.nameErr)
      (match c.kind with | .erw => 0b0000#4 | .err => 0b0010#4) c.sa c.ra c.bc c.aliasText
      (match p with | .constructed => .constructed | .executed => .executed | .failed => .failed))

/-- R189. -/
def Obligations.RdpayReadsThePayload : Prop :=
  slotGuarded .rdpay fun _ c _ s t => t = okState s (.bytes c.payload)

/-- R190. -/
def Obligations.DiscEmptiesTheSlot : Prop :=
  slotGuarded .disc fun _ _ i s t => t = { okState s .none with slots := s.slots.set i.toNat .empty }

/-! ### The frame assembler (43_frame.md) -/

/-- R220, R112, R221: the slave-address bits, the byte-count bits, and the parity of the 12-bit command word, whose code bits
are not emitted. -/
def Obligations.CmdsfBuildsTheCommandSubFrame : Prop :=
  slotGuarded .cmdsf fun _ c _ s t =>
    ∃ sab bcb, msbFirst c.sa.toNat 4 sab ∧ msbFirst (c.bc.toNat - 1) 4 bcb ∧
      t = okState s (.bits (sab ++ bcb ++ [decide ((setBits c.sa.toNat 4
        + setBits (match c.kind with | .erw => 0b0000 | .err => 0b0010) 4 + setBits (c.bc.toNat - 1) 4) % 2 = 0)]))

/-- The spec marks R222 as derived: an ERW command sub-frame has an odd number of set bits, an ERR one an even number. -/
def Obligations.CmdsfParityDependsOnTheVariant : Prop :=
  ∀ (i : Int) (p : HeldPhase) (c : Command) (s : State), s.faultReg = none → holds s i (.held p c) →
    ∃ b, exec (.cmdsf i) s = .next (okState s (.bits b)) ∧
      ones b % 2 = match c.kind with | .erw => 1 | .err => 0

/-- The spec marks R119 as derived: for equal slave address and byte count the command sub-frames of the two variants differ in
bit 8 only, and that bit is inverted. -/
def Obligations.CmdsfVariantsDifferOnlyInTheParityBit : Prop :=
  ∀ (i j : Int) (p q : HeldPhase) (c d : Command) (s : State), s.faultReg = none →
    holds s i (.held p c) → holds s j (.held q d) → c.kind = .erw → d.kind = .err → c.sa = d.sa → c.bc = d.bc →
    ∃ b x, b.length = 8 ∧ exec (.cmdsf i) s = .next (okState s (.bits (b ++ [x]))) ∧
      exec (.cmdsf j) s = .next (okState s (.bits (b ++ [!x])))

/-- R225, R113. -/
def Obligations.AddrsfBuildsTheAddressSubFrame : Prop :=
  slotGuarded .addrsf fun _ c _ s t => ∃ u, unitOf c.ra.toNat u ∧ t = okState s (.bits u)

/-- R230, R114: a write's data sub-frame is one unit per payload byte in payload order, which are `bc` units in every slot that
meets the invariant (R36); a read's is empty. -/
def Obligations.DatasfBuildsOneUnitPerByte : Prop :=
  slotGuarded .datasf fun p c _ s t =>
    match c.kind with
    | .err => t = okState s (.bits [])
    | .erw => ∃ us : List (List Bit), us.length = c.payload.length ∧
        (∀ (k : Nat) (d : Byte), c.payload[k]? = some d → ∃ u, us[k]? = some u ∧ unitOf d.toNat u) ∧
        (c.wf p → us.length = c.bc.toNat) ∧ t = okState s (.bits us.flatten)

/-- R235; the lengths are R115's and R11's, which the spec marks as derived: 18 bits for a read and `18 + 9 · bc` for a write whose
payload has `bc` bytes. -/
def Obligations.FrameConcatenatesTheSubFrames : Prop :=
  slotGuarded .frame fun p c i s t =>
    ∃ x y z, exec (.cmdsf i) s = .next (okState s (.bits x)) ∧ exec (.addrsf i) s = .next (okState s (.bits y)) ∧
      exec (.datasf i) s = .next (okState s (.bits z)) ∧ t = okState s (.bits (x ++ y ++ z)) ∧
      x.length = 9 ∧ y.length = 9 ∧
      (c.wf p → (x ++ y ++ z).length = match c.kind with | .erw => 18 + 9 * c.bc.toNat | .err => 18)

/-- The spec marks R237 as derived: every 9-bit unit of a frame from bit 9 onward has an odd number of set bits. -/
def Obligations.FrameUnitsHaveOddParity : Prop :=
  ∀ (i : Int) (p : HeldPhase) (c : Command) (s : State), s.faultReg = none → holds s i (.held p c) →
    ∃ f, exec (.frame i) s = .next (okState s (.bits f)) ∧
      ∀ k, 9 + 9 * k < f.length → ((f.drop (9 + 9 * k)).take 9).length = 9 ∧ ones ((f.drop (9 + 9 * k)).take 9) % 2 = 1

/-- The spec marks R236 as derived: two commands that agree in kind, addresses, byte count and, for a write, payload have the
same frame, whatever their phases, aliases and captured payloads. -/
def Obligations.FrameDependsOnNoOtherField : Prop :=
  ∀ (i j : Int) (p q : HeldPhase) (c d : Command) (s t : State), s.faultReg = none → t.faultReg = none →
    holds s i (.held p c) → holds t j (.held q d) → c.kind = d.kind → c.sa = d.sa → c.ra = d.ra → c.bc = d.bc →
    (c.kind = .erw → c.payload = d.payload) →
    ∃ f, exec (.frame i) s = .next (okState s (.bits f)) ∧ exec (.frame j) t = .next (okState t (.bits f))

/-- The spec marks R119 as derived: a whole frame identifies its variant and, with it, every field that is in it. -/
def Obligations.FrameIdentifiesItsCommand : Prop :=
  ∀ (i j : Int) (p q : HeldPhase) (c d : Command) (s : State) (f : List Bit), s.faultReg = none →
    holds s i (.held p c) → holds s j (.held q d) → c.wf p → d.wf q →
    exec (.frame i) s = .next (okState s (.bits f)) → exec (.frame j) s = .next (okState s (.bits f)) →
    c.kind = d.kind ∧ c.sa = d.sa ∧ c.ra = d.ra ∧ c.bc = d.bc ∧ (c.kind = .erw → c.payload = d.payload)

/-! ### Execution and the transport (44_execute.md) -/

/-- R254: EXEC of a held write, for each answer of the transport; the guards are R254's too. The frame burst is the one FRAME
answers. -/
def Obligations.ExecWriteFollowsItsRule : Prop :=
  ∀ (i bus : Int) (timeout : Duration) (s : State), s.faultReg = none →
    (¬ inRange s i → exec (.exec i bus timeout) s = .next (refusedState s .badSlot)) ∧
    (holds s i .empty → exec (.exec i bus timeout) s = .next (refusedState s .noCommand)) ∧
    ∀ p c, holds s i (.held p c) → c.kind = .erw →
      ∃ f, exec (.frame i) s = .next (okState s (.bits f)) ∧
        (∀ rest, s.burstAnswers = .ok :: rest →
          exec (.exec i bus timeout) s = .next { okState s .none with
            slots := s.slots.set i.toNat (.held .executed c),
            hist := s.hist ++ [.burst bus Config.nameErw f timeout .ok],
            burstAnswers := rest }) ∧
        (∀ info rest, s.burstAnswers = .fail info :: rest →
          exec (.exec i bus timeout) s = .next { s with
            slots := s.slots.set i.toNat (.held .failed c),
            hist := s.hist ++ [.burst bus Config.nameErw f timeout (.fail info)],
            burstAnswers := rest,
            lastOutcome := some (.response (.transportError info)) })

/-- R256: EXEC of a held read, for each answer of the transport to the burst and then to the capture. The bytes stored are the
first eight bits of each captured unit, in order (R75, R258, R259). -/
def Obligations.ExecReadFollowsItsRule : Prop :=
  ∀ (i bus : Int) (timeout : Duration) (s : State), s.faultReg = none →
    (¬ inRange s i → exec (.exec i bus timeout) s = .next (refusedState s .badSlot)) ∧
    (holds s i .empty → exec (.exec i bus timeout) s = .next (refusedState s .noCommand)) ∧
    ∀ p c, holds s i (.held p c) → c.kind = .err →
      ∃ f, exec (.frame i) s = .next (okState s (.bits f)) ∧
        (∀ info rest, s.burstAnswers = .fail info :: rest →
          exec (.exec i bus timeout) s = .next { s with
            slots := s.slots.set i.toNat (.held .failed c),
            hist := s.hist ++ [.burst bus Config.nameErr f timeout (.fail info)],
            burstAnswers := rest,
            lastOutcome := some (.response (.transportError info)) }) ∧
        (∀ info rest rest', s.burstAnswers = .ok :: rest → s.captureAnswers = .fail info :: rest' →
          exec (.exec i bus timeout) s = .next { s with
            slots := s.slots.set i.toNat (.held .failed c),
            hist := s.hist ++ [.burst bus Config.nameErr f timeout .ok,
              .capture bus Config.nameErr c.bc.toNat timeout (.fail info)],
            burstAnswers := rest,
            captureAnswers := rest',
            lastOutcome := some (.response (.transportError info)) }) ∧
        (∀ us rest rest', s.burstAnswers = .ok :: rest → s.captureAnswers = .units us :: rest' →
          us.length ≠ c.bc.toNat →
          exec (.exec i bus timeout) s = .next { s with
            faultReg := some (.captureCountMismatch i c.bc.toNat us.length),
            hist := s.hist ++ [.burst bus Config.nameErr f timeout .ok,
              .capture bus Config.nameErr c.bc.toNat timeout (.units us)],
            burstAnswers := rest,
            captureAnswers := rest',
            lastOutcome := some (.fault (.captureCountMismatch i c.bc.toNat us.length)) }) ∧
        (∀ us rest rest', s.burstAnswers = .ok :: rest → s.captureAnswers = .units us :: rest' →
          us.length = c.bc.toNat →
          exec (.exec i bus timeout) s = .next { okState s .none with
            slots := s.slots.set i.toNat
              (.held .executed { c with payload := us.map fun u => BitVec.ofNat 8 (u.toNat / 2) }),
            hist := s.hist ++ [.burst bus Config.nameErr f timeout .ok,
              .capture bus Config.nameErr c.bc.toNat timeout (.units us)],
            burstAnswers := rest,
            captureAnswers := rest' })

/-- R257, R300: a capture with another number of units than the read's byte count is recorded, leaves every slot, keeps its event,
and no later request has a step until reset. That a command word then ends in its own named stop is no part of R257 but the
model's (notes/assumptions/10). -/
def Obligations.CaptureCountMismatchStopsTheBlock : Prop :=
  ∀ (i bus : Int) (timeout : Duration) (s : State) (p : HeldPhase) (c : Command) (us : List CapturedUnit)
    (rest : List BurstAnswer) (rest' : List CaptureAnswer), s.faultReg = none → holds s i (.held p c) → c.kind = .err →
    s.burstAnswers = .ok :: rest → s.captureAnswers = .units us :: rest' → us.length ≠ c.bc.toNat →
    ∃ t h, exec (.exec i bus timeout) s = .next t ∧
      t.faultReg = some (.captureCountMismatch i c.bc.toNat us.length) ∧ t.slots = s.slots ∧
      t.hist = h ++ [.capture bus Config.nameErr c.bc.toNat timeout (.units us)] ∧ ¬ t.good ∧
      (∀ j : Instr, j.isRequest = true → exec j t = .fault .quiescent) ∧
      ∀ input more, step { t with pending := input :: more }
        = match input with
          | .reset => .next (applyReset { t with pending := more })
          | .word (.request _ _) => .fault .quiescent
          | .word (.commandWord _) => .refused .commandWordNotARequest

/-- The part of R300 about where faults come from: `faultReg` is set by an EXEC of a read whose capture has another number of
units, and by nothing else; that EXEC changes no slot. -/
def Obligations.OnlyACaptureCountSetsTheFaultRegister : Prop :=
  ∀ (i : Instr) (s t : State) (f : FaultRecord), exec i s = .next t → t.faultReg = some f →
    s.faultReg = none ∧ t.slots = s.slots ∧ t.lastOutcome = some (.fault f) ∧
    ∃ n bus timeout p c us rest, i = .exec n bus timeout ∧ holds s n (.held p c) ∧ c.kind = .err ∧
      s.burstAnswers.head? = some .ok ∧ s.captureAnswers = .units us :: rest ∧ us.length ≠ c.bc.toNat ∧
      f = .captureCountMismatch n c.bc.toNat us.length

/-- R258: two captures whose units have the same data bits and any parity bits leave the same slots and the same outcome. -/
def Obligations.CapturedParityIsNeverChecked : Prop :=
  ∀ (i bus : Int) (timeout : Duration) (s s' : State) (us vs : List CapturedUnit) (rest : List CaptureAnswer) (t : State),
    s.captureAnswers = .units us :: rest → s' = { s with captureAnswers := .units vs :: rest } →
    us.map (fun u => u.toNat / 2) = vs.map (fun u => u.toNat / 2) → exec (.exec i bus timeout) s = .next t →
    ∃ t', exec (.exec i bus timeout) s' = .next t' ∧ t'.slots = t.slots ∧ t'.lastOutcome = t.lastOutcome ∧
      t'.faultReg = t.faultReg ∧ t'.refusedMark = t.refusedMark ∧ t'.burstAnswers = t.burstAnswers

/-- R262's first sentence: EXEC behaves the same from CONSTRUCTED, EXECUTED and FAILED. Only a capture-count fault, which leaves
the slot, leaves the phase it found. -/
def Obligations.ExecIsTheSameFromEveryPhase : Prop :=
  ∀ (i bus : Int) (timeout : Duration) (s t : State) (p q : HeldPhase) (c : Command), holds s i (.held p c) →
    exec (.exec i bus timeout) s = .next t →
    exec (.exec i bus timeout) { s with slots := s.slots.set i.toNat (.held q c) }
      = .next (if t.faultReg = none then t else { t with slots := t.slots.set i.toNat (.held q c) })

/-- DOC0's round trip (95_test_vectors.md W7): under a transport that answers a read with the data units of a write's frame, in
whatever parity bits, a read of as many bytes ends with the written bytes as its payload. -/
def Obligations.EchoedDataUnitsGiveBackTheBytes : Prop :=
  ∀ (i j bus : Int) (timeout : Duration) (s : State) (p q : HeldPhase) (c d : Command) (us : List CapturedUnit)
    (f : List Bit) (rest : List BurstAnswer) (rest' : List CaptureAnswer), s.faultReg = none →
    holds s i (.held p c) → holds s j (.held q d) → c.kind = .erw → d.kind = .err → c.wf p → d.bc = c.bc →
    exec (.frame i) s = .next (okState s (.bits f)) →
    us.length = c.bc.toNat →
    (∀ k u, us[k]? = some u → ∀ n < 8, f[18 + 9 * k + n]? = some (u.getLsbD (8 - n))) →
    s.burstAnswers = .ok :: rest → s.captureAnswers = .units us :: rest' →
    ∃ t, exec (.exec j bus timeout) s = .next t ∧ holds t j (.held .executed { d with payload := c.payload })

/-- 93_implementation_defined.md I11: an EXEC whose transport never answers has no step. How the model says so is
notes/assumptions/3. -/
def Obligations.ExecWithoutAnAnswerIsStuck : Prop :=
  ∀ (i bus : Int) (timeout : Duration) (s : State) (p : HeldPhase) (c : Command), s.faultReg = none →
    holds s i (.held p c) →
    (s.burstAnswers = [] → exec (.exec i bus timeout) s = .fault .transportSilent) ∧
    (c.kind = .err → s.burstAnswers.head? = some .ok → s.captureAnswers = [] →
      exec (.exec i bus timeout) s = .fault .transportSilent)

/-! ### Errors, faults and refusals (60_exceptions.md) -/

/-- R303: a refusal sets `refusedMark` and has no other effect, and each reason is raised where R303's table says; where several
reasons apply, the first in R307's order decides. -/
def Obligations.RefusalsHaveNoOtherEffect : Prop :=
  ∀ (i : Instr) (s : State),
    (∀ r t, exec i s = .next t → t.lastOutcome = some (.refusal r) → t = refusedState s r ∧ applies r i s) ∧
    ∀ r, s.faultReg = none → applies r i s → (∀ q, applies q i s → precedence r ≤ precedence q) →
      exec i s = .next (refusedState s r)

/-- R103: a slot index that names no slot is refused with BadSlot; otherwise an operand outside its type or, for `v`, `w` and
`u`, outside its legal range is refused with BadOperand; neither has another effect. No other request is refused with BadOperand,
whatever its `sa`, `ra` and `bc`. -/
def Obligations.IllTypedOperandsAreRefused : Prop :=
  ∀ (i : Instr) (s : State), s.faultReg = none →
    (∀ n, slotOperand i = some n → ¬ inRange s n → exec i s = .next (refusedState s .badSlot)) ∧
    ((∀ n, slotOperand i = some n → inRange s n) → i.isRequest = true → i.wellFormed = false →
      exec i s = .next (refusedState s .badOperand)) ∧
    (i.wellFormed = true → exec i s ≠ .next (refusedState s .badOperand))

/-- R80 and R41: only EXEC calls the transport. It appends one event per call it makes, for one or two calls or, where it is refused, none; nothing
else changes `hist` or takes an answer. -/
def Obligations.OnlyExecCallsTheTransport : Prop :=
  ∀ (i : Instr) (s t : State), exec i s = .next t →
    ∃ evs, t.hist = s.hist ++ evs ∧ s.burstAnswers.length + s.captureAnswers.length
        = t.burstAnswers.length + t.captureAnswers.length + evs.length ∧
      ((∃ n bus timeout, i = .exec n bus timeout) ∧ evs.length ≤ 2 ∨ evs = [] ∧ t.burstAnswers = s.burstAnswers ∧
        t.captureAnswers = s.captureAnswers)

/-- R80, the part about the operations that change no state: they leave all of the spec's state but the refusal mark, so the
same operation again ends in the same outcome. -/
def Obligations.PureOperationsRepeat : Prop :=
  ∀ (i : Instr) (s t : State), exec i s = .next t →
    (∃ n, i = .frame n ∨ i = .cmdsf n ∨ i = .addrsf n ∨ i = .datasf n ∨ i = .rdcmd n ∨ i = .rdpay n) ∨
      (∃ v w b, i = .tobits v w ∨ i = .sumbits b ∨ i = .oddpar b ∨ i = .oddparb b ∨ i = .decu b) →
    t.slots = s.slots ∧ t.faultReg = s.faultReg ∧ t.hist = s.hist ∧ exec i t = .next t

/-- R296: the only architectural errors are OutOfRangeError of the two constructions and TransportError of EXEC. -/
def Obligations.ErrorsComeFromTheirOperations : Prop :=
  ∀ (i : Instr) (s t : State) (r : Response), exec i s = .next t → t.lastOutcome = some (.response r) →
    (∃ out, r = .ok out) ∨
    (∃ f lo hi x, r = .outOfRange f lo hi x) ∧ isConstruct i ∨
    (∃ info, r = .transportError info) ∧ ∃ n bus timeout, i = .exec n bus timeout

/-- R291: only the constructions raise OutOfRangeError, with the field's code, bounds and offending operand, and it changes no
state. -/
def Obligations.OutOfRangeChangesNoState : Prop :=
  ∀ (i : Instr) (s t : State) (f : RangeField) (lo hi x : Int), exec i s = .next t →
    t.lastOutcome = some (.response (.outOfRange f lo hi x)) →
    t = { s with lastOutcome := t.lastOutcome } ∧
    ∃ n sa ra bc : Int, ((∃ bs a, i = .constructErw n sa ra bs a ∧ bc = bs.length) ∨ ∃ a, i = .constructErr n sa ra bc a) ∧
      holds s n .empty ∧ ¬ (lo ≤ x ∧ x ≤ hi) ∧
      (f.code = 0 ∧ lo = 0 ∧ hi = 15 ∧ x = sa ∨ f.code = 1 ∧ lo = 0 ∧ hi = 255 ∧ x = ra ∨
        f.code = 2 ∧ lo = 1 ∧ hi = 16 ∧ x = bc)

/-- R295: only EXEC raises TransportError. The slot's phase becomes FAILED and its command stays, the history ends with the call that
answered FAIL, and a read whose burst failed made no capture. -/
def Obligations.TransportErrorMarksTheSlotFailed : Prop :=
  ∀ (i : Instr) (s t : State) (info : Text), exec i s = .next t →
    t.lastOutcome = some (.response (.transportError info)) →
    ∃ n bus timeout p c, i = .exec n bus timeout ∧ holds s n (.held p c) ∧
      t.slots = s.slots.set n.toNat (.held .failed c) ∧ t.faultReg = s.faultReg ∧ t.refusedMark = s.refusedMark ∧
      ((∃ name fr, t.hist = s.hist ++ [.burst bus name fr timeout (.fail info)] ∧ t.captureAnswers = s.captureAnswers) ∨
        c.kind = .err ∧ ∃ name fr n', t.hist
          = s.hist ++ [.burst bus name fr timeout .ok, .capture bus name n' timeout (.fail info)])

/-- R39 and R40, as far as a step goes: every refusal sets `refusedMark`, and only the reset input clears it or a recorded fault. -/
def Obligations.OnlyResetClearsTheStickyRegisters : Prop :=
  ∀ (s t : State), step s = .next t → s.pending.head? ≠ some .reset →
    (s.refusedMark = true → t.refusedMark = true) ∧
    (∀ f, s.faultReg = some f → t.faultReg = some f) ∧
    (∀ r, s.pending ≠ [] → t.lastOutcome = some (.refusal r) → t.refusedMark = true)

/-! ### Encodings (30_encoding.md) -/

/-- R101, R102, R118: the word of every request, whatever its operands, and of every command word with a byte count of 1 to 16 decodes to it, and a word that decodes to an instruction is that instruction's word,
the reserved code 0x0 apart, which is reserved whatever operands come with it (R105). How operands stand in a record is
notes/assumptions/8. -/
def Obligations.DecodeAndEncodeAgree : Prop :=
  (∀ i : Instr, i.encodable = true → decode (encode i) = .ok i) ∧
  ∀ (p : PortWord) (i : Instr), decode p = .ok i →
    i.encodable = true ∧ (p = encode i ∨ i = .reservedOp0 ∧ ∃ ops, p = .request 0#4 ops)

/-- R101's table, every code and operand record written out, and two words of R110's layout. That a record is the list of its
operands in the table's order is notes/assumptions/8. -/
def Obligations.DecodesTheListedWords : Prop :=
  (∀ (i sa ra bc bus v w : Int) (timeout : Duration) (xs : List Int) (a : Option Text),
    decode (.request 0b0000#4 []) = .ok .reservedOp0 ∧
    decode (.request 0b0001#4 [.int i, .int sa, .int ra, .ints xs, .text a]) = .ok (.constructErw i sa ra xs a) ∧
    decode (.request 0b0010#4 [.int i, .int sa, .int ra, .int bc, .text a]) = .ok (.constructErr i sa ra bc a) ∧
    decode (.request 0b0011#4 [.int i, .int bus, .int timeout]) = .ok (.exec i bus timeout) ∧
    decode (.request 0b0100#4 [.int i]) = .ok (.frame i) ∧
    decode (.request 0b0101#4 [.int i]) = .ok (.cmdsf i) ∧
    decode (.request 0b0110#4 [.int i]) = .ok (.addrsf i) ∧
    decode (.request 0b0111#4 [.int i]) = .ok (.datasf i) ∧
    decode (.request 0b1000#4 [.int i]) = .ok (.rdcmd i) ∧
    decode (.request 0b1001#4 [.int i]) = .ok (.rdpay i) ∧
    decode (.request 0b1010#4 [.int i]) = .ok (.disc i) ∧
    decode (.request 0b1011#4 [.int v, .int w]) = .ok (.tobits v w) ∧
    decode (.request 0b1100#4 [.ints xs]) = .ok (.sumbits xs) ∧
    decode (.request 0b1101#4 [.ints xs]) = .ok (.oddpar xs) ∧
    decode (.request 0b1110#4 [.ints xs]) = .ok (.oddparb xs) ∧
    decode (.request 0b1111#4 [.ints xs]) = .ok (.decu xs)) ∧
  decode (.commandWord 0b010100000000#12) = .ok (.extendedRegisterWrite 5#4 1#5) ∧
  decode (.commandWord 0b001100101111#12) = .ok (.extendedRegisterRead 3#4 16#5)

/-- The spec marks R118 as derived: a 12-bit word is an ERW or ERR command word by its bits 7:4 and is no extended-register
command otherwise; its byte count is bits 3:0 plus 1. -/
def Obligations.CommandWordsDecodeByTheirFields : Prop :=
  ∀ (sa code : BitVec 4) (bc : BitVec 5) (cw : BitVec 12), 1 ≤ bc.toNat → bc.toNat ≤ 16 →
    cw.toNat = sa.toNat * 256 + code.toNat * 16 + (bc.toNat - 1) →
    decode (.commandWord cw) =
      if code = 0b0000#4 then .ok (.extendedRegisterWrite sa bc)
      else if code = 0b0010#4 then .ok (.extendedRegisterRead sa bc)
      else .error (.notExtendedRegister code)

/-- R110: the command word's value has the slave address, the command code and the byte count minus 1 in its three nibbles, its bit
sequence is that value most significant bit first, and the command sub-frame's last bit makes the number of its set bits odd. -/
def Obligations.CommandWordIsTheParityInput : Prop :=
  ∀ (i : Int) (p : HeldPhase) (c : Command) (s : State), s.faultReg = none → holds s i (.held p c) → c.wf p →
    (commandWord c).toNat = c.sa.toNat * 256 + (match c.kind with | .erw => 0 | .err => 2) * 16 + (c.bc.toNat - 1) ∧
    msbFirst (commandWord c).toNat 12 (commandWordBits c) ∧
    ∃ b x, exec (.cmdsf i) s = .next (okState s (.bits (b ++ [x]))) ∧ (setBits (commandWord c).toNat 12 + x.toNat) % 2 = 1

/-- R105: code 0x0 is refused, whatever operands come with it, and every other code selects an operation. -/
def Obligations.ReservedOpIsRefused : Prop :=
  (∀ (s : State) (ops : List OperandValue) (more : List PortInput), s.faultReg = none →
    s.pending = .word (.request 0#4 ops) :: more →
    exec .reservedOp0 s = .next (refusedState s .reservedOp) ∧
    step s = .next { refusedState s .reservedOp with pending := more }) ∧
  ∀ op : BitVec 4, op ≠ 0#4 →
    (∃ ops i, decode (.request op ops) = .ok i) ∧ ∀ ops, decode (.request op ops) ≠ .ok .reservedOp0

/-- R118's sentence "No operation of the block takes a command word as input": presenting one is the model's named stop
(notes/assumptions/10). -/
def Obligations.CommandWordsAreNotTaken : Prop :=
  (∀ (sa : BitVec 4) (bc : BitVec 5) (s : State), exec (.extendedRegisterWrite sa bc) s = .refused .commandWordNotARequest ∧
    exec (.extendedRegisterRead sa bc) s = .refused .commandWordNotARequest) ∧
  ∀ (cw : BitVec 12) (s : State) (more : List PortInput), s.pending = .word (.commandWord cw) :: more →
    step s = .refused .commandWordNotARequest

/-- A request that is not the operand record of its operation is refused; which reason is the model's choice
(notes/assumptions/8) within R103 and R307. -/
def Obligations.MalformedRequestsAreRefused : Prop :=
  ∀ (op : BitVec 4) (ops : List OperandValue) (e : DecodeError) (s : State) (more : List PortInput), s.faultReg = none →
    s.pending = .word (.request op ops) :: more → decode (.request op ops) = .error e →
    e = .operandShape op ∧
    (step s = .next { refusedState s .badOperand with pending := more } ∨
      step s = .next { refusedState s .badSlot with pending := more })

/-! ### The machine as a whole -/

/-- A step runs the decoded instruction (R8, R100): the word at the head of the input is taken and its instruction executed;
`withFetchWord` presents the opcode table's word as that head (notes/assumptions/1). -/
def Obligations.StepRunsTheDecodedInstruction : Prop :=
  (∀ (s : State) (p : PortWord) (more : List PortInput) (i : Instr), s.pending = .word p :: more → decode p = .ok i →
    step s = exec i { s with pending := more }) ∧
  ∀ (s : State) (nbits w : Nat) (i : Instr), decodeTableWord nbits w = some i → step (s.withFetchWord nbits w) = exec i s

/-- R47: the state after reset, for every number of slots. -/
def Obligations.ResetStateIsAsListed : Prop :=
  ∀ n : Nat, (State.resetWith n).slots.length = n ∧ (∀ x ∈ (State.resetWith n).slots, x = .empty) ∧
    (State.resetWith n).faultReg = none ∧ (State.resetWith n).refusedMark = false ∧ (State.resetWith n).hist = [] ∧
    State.reset = State.resetWith State.reset.slots.length

/-- R340: the reset input takes any state, a faulted one too, to the reset values with as many slots; the host's and the
transport's further inputs stay (notes/assumptions/1). -/
def Obligations.ResetInputRestoresTheResetValues : Prop :=
  ∀ (s : State) (more : List PortInput), s.pending = .reset :: more →
    step s = .next { State.resetWith s.slots.length with
      pending := more, burstAnswers := s.burstAnswers, captureAnswers := s.captureAnswers }

/-- R38 and R10's "two distinct strings". -/
def Obligations.VariantsHaveTheListedProperties : Prop :=
  Kind.name .erw = Config.nameErw ∧ Kind.name .err = Config.nameErr ∧ Config.nameErw ≠ Config.nameErr ∧
  Kind.commandCode .erw = 0b0000#4 ∧ Kind.commandCode .err = 0b0010#4 ∧
  Kind.commandBits .erw = [false, false, false, false] ∧ Kind.commandBits .err = [false, false, true, false] ∧
  ∀ k : Kind, k.commandFieldWidth = 4 ∧ k.registerAddressFieldWidth = 8 ∧ k.byteCountFieldWidth = 4 ∧
    k.byteCountLimit = 16 ∧ k.registerAddressLimit = 255

/-- R35 and R36: while a slot is not EMPTY its kind, addresses, byte count and alias never change, and a write's payload never
does; R37: a read's payload changes only by an EXEC of that slot that answers OK. Only DISC empties a slot. -/
def Obligations.HeldCommandsKeepTheirFields : Prop :=
  ∀ (i : Instr) (s t : State) (n : Int) (p : HeldPhase) (c : Command), exec i s = .next t → holds s n (.held p c) →
    i = .disc n ∧ holds t n .empty ∨
    ∃ q d, holds t n (.held q d) ∧ d.kind = c.kind ∧ d.sa = c.sa ∧ d.ra = c.ra ∧ d.bc = c.bc ∧
      d.aliasText = c.aliasText ∧
      ((q ≠ p ∨ d ≠ c) → ∃ bus timeout, i = .exec n bus timeout) ∧
      (d.payload ≠ c.payload → c.kind = .err ∧ q = .executed ∧ d.payload.length = c.bc.toNat ∧
        t.lastOutcome = some (.response (.ok .none)))

/-- Every step keeps the invariant (R31, R32, R35 to R37, R39, R41, R84, R252, R257, R263), in every state that satisfies it. -/
def Obligations.EveryStepKeepsTheInvariant : Prop :=
  ∀ s t : State, s.Inv → step s = .next t → t.Inv ∧ t.slots.length = s.slots.length

/-- The invariant holds after reset, for every number of slots from 1 up (R31, R47). -/
def Obligations.ResetMeetsTheInvariant : Prop := (∀ n : Nat, 1 ≤ n → (State.resetWith n).Inv) ∧ State.reset.Inv

/-- R187: the alias is stored and given back by RDCMD, and nothing else depends on it: the same request, with another alias, in a
state with other aliases, ends alike but for the aliases. -/
def Obligations.TheAliasAffectsNothingElse : Prop :=
  ∀ (i : Instr) (a : Option Text) (s : State),
    exec (relabelInstr a i) (relabelState a s) =
      match exec i s with
      | .next t => .next (relabelState a t)
      | .fault r => .fault r
      | .refused r => .refused r

/-- R252, R318: the bus and the timeout are passed on and never read; two EXECs that differ in them alone end alike but for the bus and
timeout written in the new events. -/
def Obligations.BusAndTimeoutAreOnlyPassedOn : Prop :=
  ∀ (i bus bus' : Int) (timeout timeout' : Duration) (s t : State), exec (.exec i bus timeout) s = .next t →
    ∃ t', exec (.exec i bus' timeout') s = .next t' ∧ withoutRouting t' = withoutRouting t ∧
      ∀ e ∈ t.hist.drop s.hist.length,
        (∃ name fr r, e = .burst bus name fr timeout r) ∨ ∃ name n q, e = .capture bus name n timeout q

/-- R313, R123: `executeMany` runs its EXECs in order and stops after the first outcome that is not `OK`; the later slots then never reach
the transport, and nothing is undone. -/
def Obligations.ExecuteManyStopsAtTheFirstFailure : Prop :=
  ∀ (is : List Int) (bus : Int) (timeout : Duration) (s t : State), executeMany is bus timeout s = .next t →
    ∃ (done : List Int) (left : List Int) (mid : List State), is = done ++ left ∧ mid.length = done.length ∧
      (s :: mid).getLast? = some t ∧
      (∀ k n before after, done[k]? = some n → (s :: mid)[k]? = some before → mid[k]? = some after →
        exec (.exec n bus timeout) before = .next after ∧ (after.lastWasOk = true ∨ k + 1 = done.length)) ∧
      (left ≠ [] → t.lastWasOk = false ∧ done ≠ [])
end

