-- ==== Sys2Proof/Laws/Bits.lean ====
section
/-! SUPPORT. The bit packer, the bit sum, the parity bit and the units built from them: one lemma each for length, bit and
value. -/

namespace Sys2Proof.Machine

/-! ### The packer -/

@[simp] theorem toBits_length (v w : Nat) : (toBits v w).length = w := by simp [toBits]

theorem toBits_getElem? (v w k : Nat) (h : k < w) : (toBits v w)[k]? = some (v.testBit (w - 1 - k)) := by
  simp [toBits, h, Nat.testBit_eq_decide_div_mod_eq, beq_eq_decide]

theorem toBits_succ (v w : Nat) : toBits v (w + 1) = v.testBit w :: toBits v w := by
  apply List.ext_getElem?
  intro k
  rcases k with _ | k
  · rw [toBits_getElem? _ _ _ (by omega)]; simp
  · by_cases h : k < w
    · rw [toBits_getElem? _ _ _ (by omega), List.getElem?_cons_succ, toBits_getElem? _ _ _ h]
      congr 2; omega
    · simp [toBits_length, not_lt.mp h]

/-- A list is the packed bits of `v` when it has the length and the bits. -/
theorem eq_toBits {v w : Nat} {b : List Bit} (hl : b.length = w)
    (hb : ∀ k < w, b[k]? = some (v.testBit (w - 1 - k))) : b = toBits v w := by
  apply List.ext_getElem?
  intro k
  by_cases h : k < w
  · rw [hb k h, toBits_getElem? v w k h]
  · rw [List.getElem?_eq_none (by omega), List.getElem?_eq_none (by simp; omega)]

theorem toBits_mod (v w : Nat) : toBits (v % 2 ^ w) w = toBits v w := by
  refine eq_toBits (by simp) fun k hk => ?_
  rw [toBits_getElem? _ _ _ hk, Nat.testBit_mod_two_pow]
  simp; omega

theorem foldl_bits_append (b : List Bit) (acc : Nat) :
    b.foldl (fun a x => 2 * a + x.toNat) acc = acc * 2 ^ b.length + bitsValue b := by
  unfold bitsValue
  induction b generalizing acc with
  | nil => simp
  | cons x xs ih =>
    rw [List.foldl_cons, List.foldl_cons, ih, ih (2 * 0 + x.toNat)]
    simp [pow_succ]; ring

theorem bitsValue_cons (x : Bit) (b : List Bit) : bitsValue (x :: b) = x.toNat * 2 ^ b.length + bitsValue b := by
  rw [bitsValue, List.foldl_cons, foldl_bits_append]; simp

theorem bitsValue_append (a b : List Bit) : bitsValue (a ++ b) = bitsValue a * 2 ^ b.length + bitsValue b := by
  rw [bitsValue, List.foldl_append, foldl_bits_append]; rfl

theorem bitsValue_lt (b : List Bit) : bitsValue b < 2 ^ b.length := by
  induction b with
  | nil => simp [bitsValue]
  | cons x xs ih =>
    rw [bitsValue_cons, List.length_cons, pow_succ]
    cases x <;> simp <;> omega

/-- Reading the packed bits gives `v mod 2^w` (R141). -/
theorem bitsValue_toBits (v w : Nat) : bitsValue (toBits v w) = v % 2 ^ w := by
  induction w with
  | zero => simp [toBits, bitsValue, Nat.mod_one]
  | succ w ih => rw [toBits_succ, bitsValue_cons, ih, toBits_length, Nat.toNat_testBit, Nat.mod_pow_succ]; ring

theorem toBits_bitsValue (b : List Bit) : toBits (bitsValue b) b.length = b := by
  induction b with
  | nil => rfl
  | cons x xs ih =>
    have h := bitsValue_lt xs
    rw [List.length_cons, toBits_succ, bitsValue_cons]
    congr 1
    · cases x
      · simpa using Nat.testBit_lt_two_pow h
      · simp [Nat.testBit_two_pow_add_eq, Nat.testBit_lt_two_pow h]
    · rw [← toBits_mod, Nat.add_comm, Nat.add_mul_mod_self_right, toBits_mod, ih]

/-! ### The bit sum and the parity bit -/

@[simp] theorem sumBits_nil : sumBits [] = 0 := rfl

@[simp] theorem sumBits_cons (x : Bit) (b : List Bit) : sumBits (x :: b) = x.toNat + sumBits b := by simp [sumBits]

@[simp] theorem sumBits_append (a b : List Bit) : sumBits (a ++ b) = sumBits a + sumBits b := by simp [sumBits]

theorem sumBits_eq_count (b : List Bit) : sumBits b = b.count true := by
  induction b with
  | nil => rfl
  | cons x xs ih => cases x <;> simp [ih, Nat.add_comm]

theorem sumBits_le_length (b : List Bit) : sumBits b ≤ b.length := by
  rw [sumBits_eq_count]; exact List.count_le_length

theorem oddParity_eq (b : List Bit) : oddParity b = decide (sumBits b % 2 = 0) := by
  simp [oddParity, beq_eq_decide]

@[simp] theorem oddParity_nil : oddParity [] = true := rfl

theorem oddParity_cons (x : Bit) (b : List Bit) : oddParity (x :: b) = Bool.xor x (oddParity b) := by
  simp only [oddParity_eq, sumBits_cons]
  cases x
  · simp
  · rcases Nat.mod_two_eq_zero_or_one (sumBits b) with h | h <;> simp [Nat.add_mod, h]

theorem oddParity_append (a b : List Bit) : oddParity (a ++ b) = !(Bool.xor (oddParity a) (oddParity b)) := by
  induction a with
  | nil => simp
  | cons x xs ih => simp [oddParity_cons, ih]

/-- The parity bit makes the number of set bits odd (R161). -/
theorem sumBits_with_parity (b : List Bit) : (sumBits b + (oddParity b).toNat) % 2 = 1 := by
  rw [oddParity_eq]
  by_cases h : sumBits b % 2 = 0 <;> simp [h] <;> omega

/-! ### Units and captured units -/

@[simp] theorem byteUnit_length (d : Nat) : (byteUnit d).length = 9 := by simp [byteUnit]

theorem byteUnit_odd (d : Nat) : sumBits (byteUnit d) % 2 = 1 := by
  simpa [byteUnit] using sumBits_with_parity (toBits d 8)

theorem dataPortion_append (d : Nat) (rest : List Bit) :
    dataPortion (toBits d 8 ++ rest) = BitVec.ofNat 8 d := by
  have h : (toBits d 8 ++ rest).take 8 = toBits d 8 := by
    rw [List.take_append_of_le_length (by simp), List.take_of_length_le (by simp)]
  rw [dataPortion, h, bitsValue_toBits]
  simp [← BitVec.toNat_inj]

theorem capturedByte_eq (u : CapturedUnit) : capturedByte u = BitVec.ofNat 8 (u.toNat / 2) := by
  have h : unitBits u = toBits (u.toNat / 2) 8 ++ [u.toNat.testBit 0] := by
    symm
    refine eq_toBits (by simp [Config.unitWidth]) fun k hk => ?_
    have hk9 : k < 9 := hk
    by_cases h8 : k < 8
    · rw [List.getElem?_append_left (by simpa using h8), toBits_getElem? _ _ _ h8, Nat.testBit_div_two]
      congr 2; simp [Config.unitWidth]; omega
    · have : k = 8 := by omega
      subst this
      rw [List.getElem?_append_right (by simp)]
      simp [Config.unitWidth]
  rw [capturedByte, h, dataPortion_append]

/-! ### Sub-frames -/

@[simp] theorem commandBits_length (k : Kind) : k.commandBits.length = 4 := by cases k <;> rfl

@[simp] theorem cmdSubFrame_length (c : Command) : (cmdSubFrame c).length = 9 := by
  cases h : c.kind <;> simp [cmdSubFrame, h, Config.saWidth, Kind.byteCountFieldWidth, Kind.commandFieldWidth, Config.cmdWidth]

theorem addrSubFrame_eq (c : Command) : addrSubFrame c = byteUnit c.ra.toNat := by
  have h := c.ra.isLt
  simp [addrSubFrame, Config.raBytes, Nat.mod_eq_of_lt h]

@[simp] theorem addrSubFrame_length (c : Command) : (addrSubFrame c).length = 9 := by simp [addrSubFrame_eq]

theorem dataSubFrame_erw {c : Command} (h : c.kind = .erw) :
    dataSubFrame c = c.payload.flatMap fun d => byteUnit d.toNat := by simp [dataSubFrame, h]

theorem dataSubFrame_err {c : Command} (h : c.kind = .err) : dataSubFrame c = [] := by simp [dataSubFrame, h]

theorem flatMap_byteUnit_length (ds : List Byte) : (ds.flatMap fun d => byteUnit d.toNat).length = 9 * ds.length := by
  induction ds with
  | nil => rfl
  | cons d ds ih => simp only [List.flatMap_cons, List.length_append, ih, byteUnit_length, List.length_cons]; ring

theorem frame_length_erw {c : Command} (h : c.kind = .erw) : (frame c).length = 18 + 9 * c.payload.length := by
  simp only [frame, dataSubFrame_erw h, List.length_append, cmdSubFrame_length, addrSubFrame_length, flatMap_byteUnit_length]

theorem frame_length_err {c : Command} (h : c.kind = .err) : (frame c).length = 18 := by
  simp [frame, dataSubFrame_err h]

/-! ### Operand lists -/

theorem bitOfInt_eq_some {x : Int} {b : Bit} : bitOfInt x = some b ↔ x = if b then 1 else 0 := by
  unfold bitOfInt
  split
  · cases b <;> simp [*]
  · split <;> cases b <;> simp_all

theorem bitsOfInts_map (b : List Bit) : bitsOfInts (b.map fun x => if x then 1 else 0) = some b := by
  induction b with
  | nil => rfl
  | cons x xs ih => simp [bitsOfInts, ih, bitOfInt_eq_some.mpr rfl]

theorem bitsOfInts_eq_some {xs : List Int} {b : List Bit} :
    bitsOfInts xs = some b ↔ xs = b.map fun x => if x then 1 else 0 := by
  constructor
  · induction xs generalizing b with
    | nil => rintro ⟨⟩; rfl
    | cons x xs ih =>
      intro h
      simp only [bitsOfInts] at h
      split at h
      · next d ds hd hds => cases h; rw [List.map_cons, ← ih hds, ← bitOfInt_eq_some.mp hd]
      · cases h
  · rintro rfl; exact bitsOfInts_map b

theorem bitsOfInts_eq_none {xs : List Int} : bitsOfInts xs = none ↔ ¬ ∀ x ∈ xs, x = 0 ∨ x = 1 := by
  induction xs with
  | nil => simp [bitsOfInts]
  | cons x xs ih =>
    simp only [bitsOfInts, List.forall_mem_cons]
    rcases hx : bitOfInt x with _ | d
    · have : ¬ (x = 0 ∨ x = 1) := by
        rintro (rfl | rfl) <;> simp [bitOfInt] at hx
      simp [this]
    · have : x = 0 ∨ x = 1 := by
        have := bitOfInt_eq_some.mp hx
        cases d <;> simp_all
      rcases hs : bitsOfInts xs with _ | ds
      · simpa [this] using ih.mp hs
      · have h2 : ∀ x ∈ xs, x = 0 ∨ x = 1 := not_not.mp (mt ih.mpr (by simp [hs]))
        exact ⟨nofun, fun h => absurd ⟨this, h2⟩ h⟩

theorem bytesOfInts_map (ds : List Byte) : bytesOfInts (ds.map fun d => (d.toNat : Int)) = some ds := by
  induction ds with
  | nil => rfl
  | cons d ds ih =>
    have h : (d.toNat : Int) ≤ 255 := by have := d.isLt; omega
    simp [bytesOfInts, ih, byteOfInt, h]

theorem bytesOfInts_eq_some {xs : List Int} {ds : List Byte} :
    bytesOfInts xs = some ds ↔ xs = ds.map fun d => (d.toNat : Int) := by
  constructor
  · induction xs generalizing ds with
    | nil => rintro ⟨⟩; rfl
    | cons x xs ih =>
      intro h
      simp only [bytesOfInts] at h
      split at h
      · next d es hd hes =>
        cases h
        rw [List.map_cons, ← ih hes]
        congr 1
        unfold byteOfInt at hd
        split at hd
        · cases hd; simp; omega
        · cases hd
      · cases h
  · rintro rfl; exact bytesOfInts_map ds

theorem bytesOfInts_eq_none {xs : List Int} : bytesOfInts xs = none ↔ ¬ ∀ x ∈ xs, 0 ≤ x ∧ x ≤ 255 := by
  induction xs with
  | nil => simp [bytesOfInts]
  | cons x xs ih =>
    simp only [bytesOfInts, List.forall_mem_cons]
    by_cases hx : 0 ≤ x ∧ x ≤ 255
    · simp only [byteOfInt, if_pos hx]
      rcases hs : bytesOfInts xs with _ | ds
      · simpa [hx] using ih.mp hs
      · have h2 := not_not.mp (mt ih.mpr (by simp [hs]))
        simpa [hx] using h2
    · simp [byteOfInt, hx]

end Sys2Proof.Machine
end

