-- ==== Sys2Proof/Laws/State.lean ====
section
/-! SUPPORT. One lemma per field for each way the shared operations update the state. -/

namespace Sys2Proof.Machine

variable (s : State) (i : Int) (x : Slot) (o : RequestOutcome) (r : RefusalReason) (f : FaultRecord)

@[simp] theorem setSlot_slots : (s.setSlot i x).slots = s.slots.set i.toNat x := rfl
@[simp] theorem setSlot_faultReg : (s.setSlot i x).faultReg = s.faultReg := rfl
@[simp] theorem setSlot_refusedMark : (s.setSlot i x).refusedMark = s.refusedMark := rfl
@[simp] theorem setSlot_hist : (s.setSlot i x).hist = s.hist := rfl
@[simp] theorem setSlot_pending : (s.setSlot i x).pending = s.pending := rfl
@[simp] theorem setSlot_burstAnswers : (s.setSlot i x).burstAnswers = s.burstAnswers := rfl
@[simp] theorem setSlot_captureAnswers : (s.setSlot i x).captureAnswers = s.captureAnswers := rfl
@[simp] theorem setSlot_lastOutcome : (s.setSlot i x).lastOutcome = s.lastOutcome := rfl

@[simp] theorem answered_slots : (s.answered o).slots = s.slots := rfl
@[simp] theorem answered_faultReg : (s.answered o).faultReg = s.faultReg := rfl
@[simp] theorem answered_refusedMark : (s.answered o).refusedMark = s.refusedMark := rfl
@[simp] theorem answered_hist : (s.answered o).hist = s.hist := rfl
@[simp] theorem answered_pending : (s.answered o).pending = s.pending := rfl
@[simp] theorem answered_burstAnswers : (s.answered o).burstAnswers = s.burstAnswers := rfl
@[simp] theorem answered_captureAnswers : (s.answered o).captureAnswers = s.captureAnswers := rfl
@[simp] theorem answered_lastOutcome : (s.answered o).lastOutcome = some o := rfl

@[simp] theorem refusedWith_slots : (s.refusedWith r).slots = s.slots := rfl
@[simp] theorem refusedWith_faultReg : (s.refusedWith r).faultReg = s.faultReg := rfl
@[simp] theorem refusedWith_refusedMark : (s.refusedWith r).refusedMark = true := rfl
@[simp] theorem refusedWith_hist : (s.refusedWith r).hist = s.hist := rfl
@[simp] theorem refusedWith_pending : (s.refusedWith r).pending = s.pending := rfl
@[simp] theorem refusedWith_burstAnswers : (s.refusedWith r).burstAnswers = s.burstAnswers := rfl
@[simp] theorem refusedWith_captureAnswers : (s.refusedWith r).captureAnswers = s.captureAnswers := rfl
@[simp] theorem refusedWith_lastOutcome : (s.refusedWith r).lastOutcome = some (.refusal r) := rfl

@[simp] theorem faultedWith_slots : (s.faultedWith f).slots = s.slots := rfl
@[simp] theorem faultedWith_faultReg : (s.faultedWith f).faultReg = some f := rfl
@[simp] theorem faultedWith_refusedMark : (s.faultedWith f).refusedMark = s.refusedMark := rfl
@[simp] theorem faultedWith_hist : (s.faultedWith f).hist = s.hist := rfl
@[simp] theorem faultedWith_pending : (s.faultedWith f).pending = s.pending := rfl
@[simp] theorem faultedWith_burstAnswers : (s.faultedWith f).burstAnswers = s.burstAnswers := rfl
@[simp] theorem faultedWith_captureAnswers : (s.faultedWith f).captureAnswers = s.captureAnswers := rfl
@[simp] theorem faultedWith_lastOutcome : (s.faultedWith f).lastOutcome = some (.fault f) := rfl

@[simp] theorem applyReset_slots : (applyReset s).slots = List.replicate s.slots.length .empty := rfl
@[simp] theorem applyReset_faultReg : (applyReset s).faultReg = none := rfl
@[simp] theorem applyReset_refusedMark : (applyReset s).refusedMark = false := rfl
@[simp] theorem applyReset_hist : (applyReset s).hist = [] := rfl
@[simp] theorem applyReset_pending : (applyReset s).pending = s.pending := rfl
@[simp] theorem applyReset_burstAnswers : (applyReset s).burstAnswers = s.burstAnswers := rfl
@[simp] theorem applyReset_captureAnswers : (applyReset s).captureAnswers = s.captureAnswers := rfl
@[simp] theorem applyReset_lastOutcome : (applyReset s).lastOutcome = none := rfl

end Sys2Proof.Machine
end

