-- ==== Sys2Proof/Laws/Ops.lean ====
section
/-! SUPPORT. One lemma per shared operation that says everything it can do: the equations that run it forward, and the inversion of
a next state, for the provers to cite instead of unfolding. -/

namespace Sys2Proof.Machine

variable {s t : State} {i : Int}

/-! ### Slots -/

theorem slotAt_eq_none : s.slotAt i = none ↔ ¬ (0 ≤ i ∧ i < s.slots.length) := by
  unfold State.slotAt
  split
  · rw [List.getElem?_eq_none_iff]; omega
  · simp [*]

theorem slotAt_eq_some {x : Slot} : s.slotAt i = some x ↔ 0 ≤ i ∧ s.slots[i.toNat]? = some x := by
  unfold State.slotAt
  split <;> simp [*]

theorem slotAt_lt {x : Slot} (h : s.slotAt i = some x) : i.toNat < s.slots.length :=
  (List.getElem?_eq_some_iff.mp (slotAt_eq_some.mp h).2).1

theorem slotAt_mem {x : Slot} (h : s.slotAt i = some x) : x ∈ s.slots :=
  List.mem_of_getElem? (slotAt_eq_some.mp h).2

/-! ### The ways a request ends -/

theorem whenReady_ready {k : Host.Outcome State Fault Refusal} (h : s.faultReg = none) : whenReady s k = k := by
  simp [whenReady, h]

theorem whenReady_faulted {k : Host.Outcome State Fault Refusal} {f : FaultRecord} (h : s.faultReg = some f) :
    whenReady s k = .fault .quiescent := by simp [whenReady, h]

theorem whenReady_next {k : Host.Outcome State Fault Refusal} :
    whenReady s k = .next t ↔ s.faultReg = none ∧ k = .next t := by
  unfold whenReady
  split <;> simp [*]

theorem respond_next {r : Response} : respond r s = .next t ↔ t = s.answered (.response r) := by
  simp [respond, eq_comm]

theorem refuse_next {r : RefusalReason} : refuse r s = .next t ↔ t = s.refusedWith r := by
  simp [refuse, eq_comm]

theorem recordFault_next {f : FaultRecord} : recordFault f s = .next t ↔ t = s.faultedWith f := by
  simp [recordFault, eq_comm]

/-! ### Held commands -/

variable {k : HeldPhase → Command → Host.Outcome State Fault Refusal}

theorem onHeld_badSlot (h : s.slotAt i = none) : onHeld i s k = .next (s.refusedWith .badSlot) := by
  simp [onHeld, h, refuse]

theorem onHeld_empty (h : s.slotAt i = some .empty) : onHeld i s k = .next (s.refusedWith .noCommand) := by
  simp [onHeld, h, refuse]

theorem onHeld_held {p : HeldPhase} {c : Command} (h : s.slotAt i = some (.held p c)) : onHeld i s k = k p c := by
  simp [onHeld, h]

theorem onHeld_next (h : onHeld i s k = .next t) :
    s.slotAt i = none ∧ t = s.refusedWith .badSlot ∨ s.slotAt i = some .empty ∧ t = s.refusedWith .noCommand ∨
      ∃ p c, s.slotAt i = some (.held p c) ∧ k p c = .next t := by
  unfold onHeld at h
  split at h
  · exact .inl ⟨‹_›, refuse_next.mp h⟩
  · exact .inr (.inl ⟨‹_›, refuse_next.mp h⟩)
  · exact .inr (.inr ⟨_, _, ‹_›, h⟩)

theorem answerFromHeld_next {out : HeldPhase → Command → Outputs} (h : answerFromHeld i s out = .next t) :
    s.faultReg = none ∧
      (s.slotAt i = none ∧ t = s.refusedWith .badSlot ∨ s.slotAt i = some .empty ∧ t = s.refusedWith .noCommand ∨
        ∃ p c, s.slotAt i = some (.held p c) ∧ t = s.answered (.response (.ok (out p c)))) := by
  obtain ⟨h0, h⟩ := whenReady_next.mp h
  refine ⟨h0, ?_⟩
  rcases onHeld_next h with h | h | ⟨p, c, hs, h⟩
  · exact .inl h
  · exact .inr (.inl h)
  · exact .inr (.inr ⟨p, c, hs, respond_next.mp h⟩)

/-! ### Construction -/

/-- Validation fails with a response that is an OutOfRangeError, or all three checks pass (R180). -/
theorem validate_cases (k : Kind) (sa ra bc : Int) :
    validate k sa ra bc = none ∧ (0 ≤ sa ∧ sa ≤ 15) ∧ (0 ≤ ra ∧ ra ≤ 255) ∧ (1 ≤ bc ∧ bc ≤ 16) ∨
      ¬ (0 ≤ sa ∧ sa ≤ 15) ∧ validate k sa ra bc = some (.outOfRange .slaveAddress 0 15 sa) ∨
      (0 ≤ sa ∧ sa ≤ 15) ∧ ¬ (0 ≤ ra ∧ ra ≤ 255) ∧
        validate k sa ra bc = some (.outOfRange .registerAddress 0 255 ra) ∨
      (0 ≤ sa ∧ sa ≤ 15) ∧ (0 ≤ ra ∧ ra ≤ 255) ∧ ¬ (1 ≤ bc ∧ bc ≤ 16) ∧
        validate k sa ra bc = some (.outOfRange .byteCount 1 16 bc) := by
  have h1 : k.registerAddressLimit = 255 := by cases k <;> rfl
  have h2 : k.byteCountLimit = 16 := by cases k <;> rfl
  simp only [validate, h1, h2, Config.saLimit]
  by_cases a : 0 ≤ sa ∧ sa ≤ 15
  · by_cases b : 0 ≤ ra ∧ ra ≤ 255
    · by_cases c : 1 ≤ bc ∧ bc ≤ 16
      · simp [a, b, c]
      · simp [a, b, c]
    · simp [a, b]
  · simp [a]

theorem constructIn_next {kd : Kind} {sa ra bc : Int} {ds : List Byte} {a : Option Text} :
    constructIn i kd sa ra bc ds a s = .next t ↔
      (∃ e, validate kd sa ra bc = some e ∧ t = s.answered (.response e)) ∨
        validate kd sa ra bc = none ∧
          t = (s.setSlot i (.held .constructed (newCommand kd sa ra bc ds a))).answered (.response (.ok .none)) := by
  unfold constructIn
  split <;> simp [*, respond_next]

/-- The new command's fields are the validated operands (R184, R185). -/
theorem newCommand_fields (kd : Kind) {sa ra bc : Int} (ds : List Byte) (a : Option Text) (h1 : 0 ≤ sa ∧ sa ≤ 15)
    (h2 : 0 ≤ ra ∧ ra ≤ 255) (h3 : 1 ≤ bc ∧ bc ≤ 16) :
    ((newCommand kd sa ra bc ds a).sa.toNat : Int) = sa ∧ ((newCommand kd sa ra bc ds a).ra.toNat : Int) = ra ∧
      ((newCommand kd sa ra bc ds a).bc.toNat : Int) = bc := by
  simp only [newCommand, BitVec.toNat_ofInt]
  refine ⟨?_, ?_, ?_⟩ <;> omega

/-! ### The transport calls -/

theorem callBurst_some {bus : Int} {name : Text} {fr : List Bit} {T : Duration} {r : BurstAnswer} :
    callBurst bus name fr T s = some (r, t) ↔
      ∃ rest, s.burstAnswers = r :: rest ∧
        t = { s with burstAnswers := rest, hist := s.hist ++ [.burst bus name fr T r] } := by
  unfold callBurst
  split
  · simp [*]
  · next r' rest hr =>
    simp only [Option.some.injEq, Prod.mk.injEq, hr, List.cons.injEq]
    constructor
    · rintro ⟨rfl, rfl⟩; exact ⟨rest, ⟨rfl, rfl⟩, rfl⟩
    · rintro ⟨_, ⟨rfl, rfl⟩, rfl⟩; exact ⟨rfl, rfl⟩

theorem callCapture_some {bus : Int} {name : Text} {n : Nat} {T : Duration} {q : CaptureAnswer} :
    callCapture bus name n T s = some (q, t) ↔
      ∃ rest, s.captureAnswers = q :: rest ∧
        t = { s with captureAnswers := rest, hist := s.hist ++ [.capture bus name n T q] } := by
  unfold callCapture
  split
  · simp [*]
  · next q' rest hq =>
    simp only [Option.some.injEq, Prod.mk.injEq, hq, List.cons.injEq]
    constructor
    · rintro ⟨rfl, rfl⟩; exact ⟨rest, ⟨rfl, rfl⟩, rfl⟩
    · rintro ⟨_, ⟨rfl, rfl⟩, rfl⟩; exact ⟨rfl, rfl⟩

/-- Everything an EXEC of a held write can do when it answers a next state (R254). -/
theorem executeWrite_next {c : Command} {bus : Int} {T : Duration} :
    executeWrite i c bus T s = .next t ↔
      (∃ info rest, s.burstAnswers = .fail info :: rest ∧
        t = { s with
          slots := s.slots.set i.toNat (.held .failed c), burstAnswers := rest,
          hist := s.hist ++ [.burst bus Config.nameErw (frame c) T (.fail info)],
          lastOutcome := some (.response (.transportError info)) }) ∨
      ∃ rest, s.burstAnswers = .ok :: rest ∧
        t = { s with
          slots := s.slots.set i.toNat (.held .executed c), burstAnswers := rest,
          hist := s.hist ++ [.burst bus Config.nameErw (frame c) T .ok],
          lastOutcome := some (.response (.ok .none)) } := by
  unfold executeWrite callBurst
  rcases hb : s.burstAnswers with _ | ⟨_ | info, rest⟩ <;>
    simp [respond, State.answered, State.setSlot, Kind.name, eq_comm (b := t)]

/-- Everything the capture half of an EXEC of a held read can do when it answers a next state (R256, R257). -/
theorem captureInto_next {c : Command} {bus : Int} {T : Duration} :
    captureInto i c bus T s = .next t ↔
      (∃ info rest, s.captureAnswers = .fail info :: rest ∧
        t = { s with
          slots := s.slots.set i.toNat (.held .failed c), captureAnswers := rest,
          hist := s.hist ++ [.capture bus Config.nameErr c.bc.toNat T (.fail info)],
          lastOutcome := some (.response (.transportError info)) }) ∨
      (∃ us rest, s.captureAnswers = .units us :: rest ∧ us.length ≠ c.bc.toNat ∧
        t = { s with
          faultReg := some (.captureCountMismatch i c.bc.toNat us.length), captureAnswers := rest,
          hist := s.hist ++ [.capture bus Config.nameErr c.bc.toNat T (.units us)],
          lastOutcome := some (.fault (.captureCountMismatch i c.bc.toNat us.length)) }) ∨
      ∃ us rest, s.captureAnswers = .units us :: rest ∧ us.length = c.bc.toNat ∧
        t = { s with
          slots := s.slots.set i.toNat (.held .executed { c with payload := us.map capturedByte }),
          captureAnswers := rest,
          hist := s.hist ++ [.capture bus Config.nameErr c.bc.toNat T (.units us)],
          lastOutcome := some (.response (.ok .none)) } := by
  unfold captureInto callCapture
  rcases hb : s.captureAnswers with _ | ⟨us | info, rest⟩
  · simp
  · by_cases hl : us.length = c.bc.toNat <;>
      simp [hl, respond, recordFault, State.answered, State.faultedWith, State.setSlot, Kind.name, eq_comm (b := t)]
  · simp [respond, State.answered, State.setSlot, Kind.name, eq_comm (b := t)]

/-- Everything an EXEC of a held read can do when it answers a next state (R256): the burst fails, or it answers `OK` and the
capture half runs on the state after the burst. -/
theorem executeRead_next {c : Command} {bus : Int} {T : Duration} :
    executeRead i c bus T s = .next t ↔
      (∃ info rest, s.burstAnswers = .fail info :: rest ∧
        t = { s with
          slots := s.slots.set i.toNat (.held .failed c), burstAnswers := rest,
          hist := s.hist ++ [.burst bus Config.nameErr (frame c) T (.fail info)],
          lastOutcome := some (.response (.transportError info)) }) ∨
      ∃ rest, s.burstAnswers = .ok :: rest ∧
        captureInto i c bus T { s with
          burstAnswers := rest, hist := s.hist ++ [.burst bus Config.nameErr (frame c) T .ok] } = .next t := by
  unfold executeRead callBurst
  rcases hb : s.burstAnswers with _ | ⟨_ | info, rest⟩
  · simp
  · simp [Kind.name]
  · simp [respond, State.answered, State.setSlot, Kind.name, eq_comm (b := t)]

/-- Everything EXEC can do when it answers a next state. -/
theorem execExec_next {bus : Int} {T : Duration} (h : execExec i bus T s = .next t) :
    s.faultReg = none ∧
      (s.slotAt i = none ∧ t = s.refusedWith .badSlot ∨ s.slotAt i = some .empty ∧ t = s.refusedWith .noCommand ∨
        ∃ p c, s.slotAt i = some (.held p c) ∧
          (c.kind = .erw ∧ executeWrite i c bus T s = .next t ∨ c.kind = .err ∧ executeRead i c bus T s = .next t)) := by
  obtain ⟨h0, h⟩ := whenReady_next.mp h
  refine ⟨h0, ?_⟩
  rcases onHeld_next h with h | h | ⟨p, c, hs, h⟩
  · exact .inl h
  · exact .inr (.inl h)
  · refine .inr (.inr ⟨p, c, hs, ?_⟩)
    rcases hk : c.kind
    · rw [hk] at h; exact .inl ⟨rfl, h⟩
    · rw [hk] at h; exact .inr ⟨rfl, h⟩

/-- The variants' names differ (R10). -/
theorem nameErw_ne_nameErr : Config.nameErw ≠ Config.nameErr := by
  unfold Config.nameErr
  split
  · next h => rw [h]; exact fun e => by simpa using congrArg List.length e
  · next h => exact fun e => h e.symm

end Sys2Proof.Machine
end

