-- ==== Sys2Proof/Laws/Exec.lean ====
section
/-! SUPPORT. What a request and a step can do, said once: the inversion of `exec` and of `step`. -/

namespace Sys2Proof.Machine

variable {s t : State} {i : Instr}

/-- Everything a request can do when `exec` answers a next state. -/
theorem exec_next_cases (h : exec i s = .next t) :
    s.faultReg = none ∧
      ((∃ r, t = s.refusedWith r) ∨
        (∃ out, t = s.answered (.response (.ok out))) ∨
        (∃ n sa ra payload a ds, i = .constructErw n sa ra payload a ∧ bytesOfInts payload = some ds ∧
          s.slotAt n = some .empty ∧ constructIn n .erw sa ra payload.length ds a s = .next t) ∨
        (∃ n sa ra bc a, i = .constructErr n sa ra bc a ∧ s.slotAt n = some .empty ∧
          constructIn n .err sa ra bc [] a s = .next t) ∨
        (∃ n p c, i = .disc n ∧ s.slotAt n = some (.held p c) ∧
          t = (s.setSlot n .empty).answered (.response (.ok .none))) ∨
        ∃ n bus T p c, i = .exec n bus T ∧ s.slotAt n = some (.held p c) ∧
          (c.kind = .erw ∧ executeWrite n c bus T s = .next t ∨ c.kind = .err ∧ executeRead n c bus T s = .next t)) := by
  have answer : ∀ {n : Int} {out : HeldPhase → Command → Outputs}, answerFromHeld n s out = .next t →
      s.faultReg = none ∧ ((∃ r, t = s.refusedWith r) ∨ ∃ out, t = s.answered (.response (.ok out))) := by
    intro n out h
    obtain ⟨h0, ⟨-, h⟩ | ⟨-, h⟩ | ⟨p, c, -, h⟩⟩ := answerFromHeld_next h
    · exact ⟨h0, .inl ⟨_, h⟩⟩
    · exact ⟨h0, .inl ⟨_, h⟩⟩
    · exact ⟨h0, .inr ⟨_, h⟩⟩
  have pure' : ∀ {a b c d : Prop}, a ∧ (b ∨ c) → a ∧ (b ∨ c ∨ d) := fun h => ⟨h.1, h.2.elim .inl (.inr ∘ .inl)⟩
  cases i with
  | constructErw n sa ra payload a =>
    obtain ⟨h0, h⟩ := whenReady_next.mp h
    refine ⟨h0, ?_⟩
    split at h
    · exact .inl ⟨_, refuse_next.mp h⟩
    · exact .inl ⟨_, refuse_next.mp h⟩
    · exact .inl ⟨_, refuse_next.mp h⟩
    · exact .inr (.inr (.inl ⟨_, _, _, _, _, _, rfl, ‹_›, ‹_›, h⟩))
  | constructErr n sa ra bc a =>
    obtain ⟨h0, h⟩ := whenReady_next.mp h
    refine ⟨h0, ?_⟩
    split at h
    · exact .inl ⟨_, refuse_next.mp h⟩
    · exact .inl ⟨_, refuse_next.mp h⟩
    · exact .inr (.inr (.inr (.inl ⟨_, _, _, _, _, rfl, ‹_›, h⟩)))
  | exec n bus T =>
    obtain ⟨h0, ⟨-, h⟩ | ⟨-, h⟩ | ⟨p, c, hs, h⟩⟩ := execExec_next h
    · exact ⟨h0, .inl ⟨_, h⟩⟩
    · exact ⟨h0, .inl ⟨_, h⟩⟩
    · exact ⟨h0, .inr (.inr (.inr (.inr (.inr ⟨_, _, _, p, c, rfl, hs, h⟩))))⟩
  | frame n => exact pure' (answer h)
  | cmdsf n => exact pure' (answer h)
  | addrsf n => exact pure' (answer h)
  | datasf n => exact pure' (answer h)
  | rdcmd n => exact pure' (answer h)
  | rdpay n => exact pure' (answer h)
  | disc n =>
    obtain ⟨h0, h⟩ := whenReady_next.mp h
    refine ⟨h0, ?_⟩
    rcases onHeld_next h with ⟨-, h⟩ | ⟨-, h⟩ | ⟨p, c, hs, h⟩
    · exact .inl ⟨_, h⟩
    · exact .inl ⟨_, h⟩
    · exact .inr (.inr (.inr (.inr (.inl ⟨n, p, c, rfl, hs, respond_next.mp h⟩))))
  | tobits v w =>
    obtain ⟨h0, h⟩ := whenReady_next.mp h
    refine pure' ⟨h0, ?_⟩
    split at h
    · exact .inl ⟨_, refuse_next.mp h⟩
    · exact .inr ⟨_, respond_next.mp h⟩
  | sumbits b =>
    obtain ⟨h0, h⟩ := whenReady_next.mp h
    refine pure' ⟨h0, ?_⟩
    split at h
    · exact .inl ⟨_, refuse_next.mp h⟩
    · exact .inr ⟨_, respond_next.mp h⟩
  | oddpar b =>
    obtain ⟨h0, h⟩ := whenReady_next.mp h
    refine pure' ⟨h0, ?_⟩
    split at h
    · exact .inl ⟨_, refuse_next.mp h⟩
    · exact .inr ⟨_, respond_next.mp h⟩
  | oddparb b =>
    obtain ⟨h0, h⟩ := whenReady_next.mp h
    refine pure' ⟨h0, ?_⟩
    split at h
    · exact .inl ⟨_, refuse_next.mp h⟩
    · exact .inr ⟨_, respond_next.mp h⟩
  | decu u =>
    obtain ⟨h0, h⟩ := whenReady_next.mp h
    refine pure' ⟨h0, ?_⟩
    split at h
    · exact .inl ⟨_, refuse_next.mp h⟩
    · split at h
      · exact .inl ⟨_, refuse_next.mp h⟩
      · exact .inr ⟨_, respond_next.mp h⟩
  | reservedOp0 =>
    obtain ⟨h0, h⟩ := whenReady_next.mp h
    exact ⟨h0, .inl ⟨_, refuse_next.mp h⟩⟩
  | extendedRegisterWrite sa bc => cases h
  | extendedRegisterRead sa bc => cases h

/-- Everything a step can do when it answers a next state: idle, reset, run the decoded request, or refuse a malformed one. -/
theorem step_next_cases (h : step s = .next t) :
    s.pending = [] ∧ t = s ∨
      (∃ more, s.pending = .reset :: more ∧ t = applyReset { s with pending := more }) ∨
      (∃ p more i, s.pending = .word p :: more ∧ decode p = .ok i ∧ exec i { s with pending := more } = .next t) ∨
      ∃ p more r, s.pending = .word p :: more ∧ s.faultReg = none ∧ t = ({ s with pending := more } : State).refusedWith r := by
  unfold step at h
  split at h
  · cases h; exact .inl ⟨‹_›, rfl⟩
  · cases h; exact .inr (.inl ⟨_, ‹_›, rfl⟩)
  · next p more hp =>
    split at h
    · exact .inr (.inr (.inl ⟨_, _, _, hp, ‹_›, h⟩))
    · unfold rejectWord at h
      split at h
      · obtain ⟨h0, h⟩ := whenReady_next.mp h
        exact .inr (.inr (.inr ⟨_, _, _, hp, h0, refuse_next.mp h⟩))
      · cases h

end Sys2Proof.Machine
end

