-- ==== Sys2Proof/Laws/PerInstr.lean ====
section
/-! SUPPORT. The statements about every instruction as syntax: one family, one lemma per constructor. -/

namespace Sys2Proof.Laws.Encoding

/-- The word of an instruction that has one decodes to it (R101, R110, R118). -/
def Statement (i : Instr) : Prop := i.encodable = true → decode (encode i) = .ok i

theorem constructErw (i sa ra : Int) (payload : List Int) (a : Option Text) :
    Statement (.constructErw i sa ra payload a) := fun _ => rfl
theorem constructErr (i sa ra bc : Int) (a : Option Text) : Statement (.constructErr i sa ra bc a) := fun _ => rfl
theorem exec (i bus : Int) (timeout : Duration) : Statement (.exec i bus timeout) := fun _ => rfl
theorem frame (i : Int) : Statement (.frame i) := fun _ => rfl
theorem cmdsf (i : Int) : Statement (.cmdsf i) := fun _ => rfl
theorem addrsf (i : Int) : Statement (.addrsf i) := fun _ => rfl
theorem datasf (i : Int) : Statement (.datasf i) := fun _ => rfl
theorem rdcmd (i : Int) : Statement (.rdcmd i) := fun _ => rfl
theorem rdpay (i : Int) : Statement (.rdpay i) := fun _ => rfl
theorem disc (i : Int) : Statement (.disc i) := fun _ => rfl
theorem tobits (v w : Int) : Statement (.tobits v w) := fun _ => rfl
theorem sumbits (b : List Int) : Statement (.sumbits b) := fun _ => rfl
theorem oddpar (b : List Int) : Statement (.oddpar b) := fun _ => rfl
theorem oddparb (bytes : List Int) : Statement (.oddparb bytes) := fun _ => rfl
theorem decu (u : List Int) : Statement (.decu u) := fun _ => rfl
theorem reservedOp0 : Statement .reservedOp0 := fun _ => rfl

/-- The three nibbles of a packed command word are read back (R110, R118). -/
theorem unpack_packCommandWord (sa code bcm1 : BitVec 4) :
    (packCommandWord sa code bcm1).extractLsb' 8 4 = sa ∧ (packCommandWord sa code bcm1).extractLsb' 4 4 = code ∧
      (packCommandWord sa code bcm1).extractLsb' 0 4 = bcm1 := by
  refine ⟨?_, ?_, ?_⟩ <;>
  · apply BitVec.eq_of_getLsbD_eq
    intro k hk
    simp only [packCommandWord, BitVec.getLsbD_extractLsb', BitVec.getLsbD_append]
    interval_cases k <;> simp

/-- The byte-count field and the logical byte count determine each other (R110, R118). -/
theorem byteCountOfField_fieldOfByteCount : ∀ bc : BitVec 5, byteCountOk bc = true → byteCountOfField (fieldOfByteCount bc) = bc := by
  decide

theorem fieldOfByteCount_byteCountOfField : ∀ bcm1 : BitVec 4, fieldOfByteCount (byteCountOfField bcm1) = bcm1 := by decide

theorem byteCountOfField_toNat : ∀ bcm1 : BitVec 4, (byteCountOfField bcm1).toNat = bcm1.toNat + 1 := by decide

theorem extendedRegisterWrite (sa : BitVec 4) (bc : BitVec 5) : Statement (.extendedRegisterWrite sa bc) := by
  intro h
  obtain ⟨h1, h2, h3⟩ := unpack_packCommandWord sa Config.codeErw (fieldOfByteCount bc)
  simp [encode, decode, decodeCommandWord, h1, h2, h3, byteCountOfField_fieldOfByteCount bc h]

theorem extendedRegisterRead (sa : BitVec 4) (bc : BitVec 5) : Statement (.extendedRegisterRead sa bc) := by
  intro h
  obtain ⟨h1, h2, h3⟩ := unpack_packCommandWord sa Config.codeErr (fieldOfByteCount bc)
  have hne : Config.codeErr ≠ Config.codeErw := by decide
  simp [encode, decode, decodeCommandWord, h1, h2, h3, hne, byteCountOfField_fieldOfByteCount bc h]

end Sys2Proof.Laws.Encoding
end

