-- ==== Sys2Proof/Tests/Slice0.lean ====
section
/-! SUPPORT. Checks of the model's own text: ill-formed terms, words written out from the encoding tables, single steps against
95_test_vectors.md, and for every statement with hypotheses a concrete case that meets them all together. -/

namespace Sys2Proof.Tests

open Sys2Proof.Machine Sys2Proof.Spec

/-! ### WellFormed: each check refuses an ill-formed term -/

theorem test_wf_negative_slot : (Instr.frame (-1)).wellFormed = false := by decide
theorem test_wf_payload_byte : (Instr.constructErw 0 5 171 [256] none).wellFormed = false := by decide
theorem test_wf_bytes_element : (Instr.oddparb [-1]).wellFormed = false := by decide
theorem test_wf_bit : (Instr.sumbits [2]).wellFormed = false := by decide
theorem test_wf_negative_value : (Instr.tobits (-1) 4).wellFormed = false := by decide
theorem test_wf_width_zero : (Instr.tobits 5 0).wellFormed = false := by decide
theorem test_wf_width_seventeen : (Instr.tobits 5 17).wellFormed = false := by decide
theorem test_wf_unit_length : (Instr.decu [1, 0, 1, 0, 1, 0, 1, 1]).wellFormed = false := by decide
theorem test_wf_unit_bit : (Instr.decu [1, 0, 1, 0, 2, 0, 1, 1, 0]).wellFormed = false := by decide
theorem test_wf_byte_count_zero : (Instr.extendedRegisterWrite 5#4 0#5).wellFormed = false := by decide
theorem test_wf_byte_count_seventeen : (Instr.extendedRegisterRead 5#4 17#5).wellFormed = false := by decide
theorem test_wf_any_addresses : (Instr.constructErr 0 (-1) 300 17 none).wellFormed = true := by decide

/-! ### Decoding: every constructor from its word (R101's table, R110's layout; the operands from 95_test_vectors.md) -/

theorem test_decode_constructErw :
    decode (.request 0b0001#4 [.int 0, .int 5, .int 171, .ints [18], .text (some ['P', 'A'])])
      = .ok (.constructErw 0 5 171 [18] (some ['P', 'A'])) := rfl
theorem test_decode_constructErr :
    decode (.request 0b0010#4 [.int 1, .int 3, .int 32, .int 16, .text none]) = .ok (.constructErr 1 3 32 16 none) := rfl
theorem test_decode_exec : decode (.request 0b0011#4 [.int 0, .int (-1), .int 7]) = .ok (.exec 0 (-1) 7) := rfl
theorem test_decode_frame : decode (.request 0b0100#4 [.int 0]) = .ok (.frame 0) := rfl
theorem test_decode_cmdsf : decode (.request 0b0101#4 [.int 1]) = .ok (.cmdsf 1) := rfl
theorem test_decode_addrsf : decode (.request 0b0110#4 [.int 2]) = .ok (.addrsf 2) := rfl
theorem test_decode_datasf : decode (.request 0b0111#4 [.int 3]) = .ok (.datasf 3) := rfl
theorem test_decode_rdcmd : decode (.request 0b1000#4 [.int 0]) = .ok (.rdcmd 0) := rfl
theorem test_decode_rdpay : decode (.request 0b1001#4 [.int 1]) = .ok (.rdpay 1) := rfl
theorem test_decode_disc : decode (.request 0b1010#4 [.int 2]) = .ok (.disc 2) := rfl
theorem test_decode_tobits : decode (.request 0b1011#4 [.int 171, .int 8]) = .ok (.tobits 171 8) := rfl
theorem test_decode_sumbits : decode (.request 0b1100#4 [.ints [1, 0, 1]]) = .ok (.sumbits [1, 0, 1]) := rfl
theorem test_decode_oddpar : decode (.request 0b1101#4 [.ints [1, 1]]) = .ok (.oddpar [1, 1]) := rfl
theorem test_decode_oddparb : decode (.request 0b1110#4 [.ints [18, 171]]) = .ok (.oddparb [18, 171]) := rfl
theorem test_decode_decu :
    decode (.request 0b1111#4 [.ints [1, 0, 1, 0, 1, 0, 1, 1, 0]]) = .ok (.decu [1, 0, 1, 0, 1, 0, 1, 1, 0]) := rfl
theorem test_decode_reservedOp0 : decode (.request 0b0000#4 [.int 3]) = .ok .reservedOp0 := rfl
/-- `0101 0000 0000`, the command word of an ERW with sa = 5 and bc = 1 (95_test_vectors.md section 2.7). -/
theorem test_decode_extendedRegisterWrite :
    decode (.commandWord 0b010100000000#12) = .ok (.extendedRegisterWrite 5#4 1#5) := by decide
/-- `0011 0010 1111`, the command word of an ERR with sa = 3 and bc = 16. -/
theorem test_decode_extendedRegisterRead :
    decode (.commandWord 0b001100101111#12) = .ok (.extendedRegisterRead 3#4 16#5) := by decide
/-- R118: any other code is no extended-register command. -/
theorem test_decode_other_code : decode (.commandWord 0b000000010000#12) = .error (.notExtendedRegister 1#4) := by decide
theorem test_decode_wrong_record : decode (.request 0b0100#4 [.ints []]) = .error (.operandShape 4#4) := rfl

/-- Every row of spec/opcode_table.json at its `match` value, in the table's order. -/
theorem test_tableWords :
    [(8, 0x1), (8, 0x2), (8, 0x3), (8, 0x4), (8, 0x5), (8, 0x6), (8, 0x7), (8, 0x8), (8, 0x9), (8, 0xA), (8, 0xB), (8, 0xC),
        (8, 0xD), (8, 0xE), (8, 0xF), (8, 0x0), (16, 0x000), (16, 0x020)].map (fun p => decodeTableWord p.1 p.2)
      = [some (.constructErw 0 0 0 [] none), some (.constructErr 0 0 0 0 none), some (.exec 0 0 0), some (.frame 0),
        some (.cmdsf 0), some (.addrsf 0), some (.datasf 0), some (.rdcmd 0), some (.rdpay 0), some (.disc 0),
        some (.tobits 0 0), some (.sumbits []), some (.oddpar []), some (.oddparb []),
        some (.decu [0, 0, 0, 0, 0, 0, 0, 0, 0]), some .reservedOp0, some (.extendedRegisterWrite 0#4 1#5),
        some (.extendedRegisterRead 0#4 1#5)] := by decide

/-! ### A small state -/

/-- ERW sa=5 ra=0xAB [0x12] (95_test_vectors.md W6). -/
def write1 : Command := { kind := .erw, sa := 5#4, ra := 0xAB#8, bc := 1#5, payload := [0x12#8], aliasText := none }

/-- ERW sa=3 ra=0x20 [0xDE, 0xAD, 0xBE] (section 2.9). -/
def write3 : Command :=
  { kind := .erw, sa := 3#4, ra := 0x20#8, bc := 3#5, payload := [0xDE#8, 0xAD#8, 0xBE#8], aliasText := none }

/-- ERR sa=3 ra=0x20 bc=3 (sections 2.9 and 2.10). -/
def read3 : Command := { kind := .err, sa := 3#4, ra := 0x20#8, bc := 3#5, payload := [], aliasText := none }

/-- The units of X3 and of X7: the same data bits, other parity bits. -/
def units3 : List CapturedUnit := [0b110111101#9, 0b101011010#9, 0b101111101#9]
def badUnits3 : List CapturedUnit := [0b110111100#9, 0b101011011#9, 0b101111100#9]

/-- A write in slot 0, a read in slot 1, slot 2 EMPTY, an executed write in slot 3; the transport answers these calls. -/
def demo (bursts : List BurstAnswer) (captures : List CaptureAnswer) : State :=
  { State.reset with
    slots := [.held .constructed write1, .held .constructed read3, .empty, .held .executed write3]
    burstAnswers := bursts
    captureAnswers := captures }

/-- `demo` with these inputs presented. -/
def asked (inputs : List PortInput) : State := { demo [.ok] [] with pending := inputs }

/-- `demo` with a recorded fault. -/
def faulted : State := { demo [] [] with faultReg := some (.captureCountMismatch 1 3 2) }

/-- The state a request leads to, if it leads to one. -/
def after (o : Host.Outcome State Fault Refusal) : Option State :=
  match o with
  | .next t => some t
  | .fault _ => none
  | .refused _ => none

/-- The outcome of a request. -/
def outcome (o : Host.Outcome State Fault Refusal) : Option RequestOutcome := (after o).bind (·.lastOutcome)

/-- A bit string in wire order. -/
def wire (b : List Nat) : List Bit := b.map (· == 1)

/-! ### Single steps against 95_test_vectors.md -/

theorem test_tobits : outcome (exec (.tobits 0x5A5A 12) State.reset)
    = some (.response (.ok (.bits (wire [1, 0, 1, 0, 0, 1, 0, 1, 1, 0, 1, 0])))) := by decide
theorem test_tobits_width : exec (.tobits 5 17) State.reset = .next (refusedState State.reset .badOperand) := rfl
theorem test_sumbits : outcome (exec (.sumbits [1, 0, 1, 0, 1, 0, 1, 1]) State.reset) = some (.response (.ok (.count 5))) := by
  decide
theorem test_oddpar : outcome (exec (.oddpar [1, 0, 1]) State.reset) = some (.response (.ok (.bit true))) := by decide
theorem test_oddpar_word :
    outcome (exec (.oddpar [0, 0, 1, 1, 0, 0, 1, 0, 1, 1, 1, 1]) State.reset) = some (.response (.ok (.bit false))) := by decide
theorem test_oddparb :
    outcome (exec (.oddparb [0xDE, 0xAD, 0xBE]) State.reset) = some (.response (.ok (.bit true))) := by decide
theorem test_decu : outcome (exec (.decu [1, 1, 0, 1, 1, 1, 1, 0, 1]) State.reset) = some (.response (.ok (.byte 0xDE#8))) := by
  decide
theorem test_constructErw :
    (after (exec (.constructErw 0 5 0xAB [0x12] none) State.reset)).map (·.slots)
      = some [.held .constructed write1, .empty, .empty, .empty] := by decide
theorem test_constructErw_empty_payload : outcome (exec (.constructErw 0 0 0 [] none) State.reset)
    = some (.response (.outOfRange .byteCount 1 16 0)) := by decide
theorem test_constructErr :
    (after (exec (.constructErr 1 3 0x20 3 none) State.reset)).map (·.slots)
      = some [.empty, .held .constructed read3, .empty, .empty] := by decide
theorem test_constructErr_order : outcome (exec (.constructErr 1 0x10 0x100 0 none) State.reset)
    = some (.response (.outOfRange .slaveAddress 0 15 16)) := by decide
theorem test_cmdsf : outcome (exec (.cmdsf 0) (demo [] []))
    = some (.response (.ok (.bits (wire [0, 1, 0, 1, 0, 0, 0, 0, 1])))) := by decide
theorem test_cmdsf_read : outcome (exec (.cmdsf 1) (demo [] []))
    = some (.response (.ok (.bits (wire [0, 0, 1, 1, 0, 0, 1, 0, 1])))) := by decide
theorem test_addrsf : outcome (exec (.addrsf 0) (demo [] []))
    = some (.response (.ok (.bits (wire [1, 0, 1, 0, 1, 0, 1, 1, 0])))) := by decide
theorem test_datasf : outcome (exec (.datasf 3) (demo [] []))
    = some (.response (.ok (.bits (wire [1, 1, 0, 1, 1, 1, 1, 0, 1, 1, 0, 1, 0, 1, 1, 0, 1, 0, 1, 0, 1, 1, 1, 1, 1, 0, 1])))) := by
  decide
theorem test_datasf_read : outcome (exec (.datasf 1) (demo [] [])) = some (.response (.ok (.bits []))) := by decide
theorem test_frame : outcome (exec (.frame 0) (demo [] []))
    = some (.response (.ok (.bits (wire [0, 1, 0, 1, 0, 0, 0, 0, 1, 1, 0, 1, 0, 1, 0, 1, 1, 0, 0, 0, 0, 1, 0, 0, 1, 0, 1])))) := by
  decide
theorem test_frame_read : outcome (exec (.frame 1) (demo [] []))
    = some (.response (.ok (.bits (wire [0, 0, 1, 1, 0, 0, 1, 0, 1, 0, 0, 1, 0, 0, 0, 0, 0, 0])))) := by decide
theorem test_rdcmd : outcome (exec (.rdcmd 3) (demo [] []))
    = some (.response (.ok (.command .erw Config.nameErw 0b0000#4 3#4 0x20#8 3#5 none .executed))) := rfl
theorem test_rdpay : outcome (exec (.rdpay 1) (demo [] [])) = some (.response (.ok (.bytes []))) := by decide
theorem test_disc : (after (exec (.disc 0) (demo [] []))).map (·.slots)
    = some [.empty, .held .constructed read3, .empty, .held .executed write3] := by decide
/-- X7: every captured parity bit is wrong, and the bytes are stored. -/
theorem test_exec_read : (after (exec (.exec 1 0 7) (demo [.ok] [.units badUnits3]))).map (·.slots.getD 1 .empty)
    = some (.held .executed { read3 with payload := [0xDE#8, 0xAD#8, 0xBE#8] }) := by decide
/-- X1's event. -/
theorem test_exec_write : (after (exec (.exec 0 (-1) 7) (demo [.ok] []))).map (·.hist)
    = some [.burst (-1) Config.nameErw
        (wire [0, 1, 0, 1, 0, 0, 0, 0, 1, 1, 0, 1, 0, 1, 0, 1, 1, 0, 0, 0, 0, 1, 0, 0, 1, 0, 1]) 7 .ok] := rfl
theorem test_reservedOp : exec .reservedOp0 State.reset = .next (refusedState State.reset .reservedOp) := rfl
theorem test_commandWord_write : exec (.extendedRegisterWrite 5#4 1#5) State.reset = .refused .commandWordNotARequest := rfl
theorem test_commandWord_read : exec (.extendedRegisterRead 3#4 16#5) State.reset = .refused .commandWordNotARequest := rfl
/-- R122's form of a write with an alias. -/
theorem test_asm : asmInstr (.constructErw 0 5 171 [18, 0] (some ['P', 'A']))
    = some "CONSTRUCT_ERW s0, sa=5, ra=171, data=[18, 0], alias=\"PA\"".toList := by decide

/-! ### Witnesses: for each statement with hypotheses, values that meet all of them -/

theorem write1_wf : write1.wf .constructed := ⟨by decide, by decide, rfl⟩
theorem write3_wf : write3.wf .executed := ⟨by decide, by decide, rfl⟩
theorem read3_wf : read3.wf .constructed := ⟨by decide, by decide, rfl⟩

theorem demo_inv (b : List BurstAnswer) (q : List CaptureAnswer) : (demo b q).Inv where
  someSlot := by simp [demo]
  slotsWf := by
    intro x hx
    simp only [demo, List.mem_cons, List.not_mem_nil, or_false] at hx
    rcases hx with rfl | rfl | rfl | rfl
    · exact write1_wf
    · exact read3_wf
    · trivial
    · exact write3_wf
  log := .start
  fault := by intro i e g h; cases h

theorem witness_TobitsPacksOrRefuses : State.reset.faultReg = none ∧ ((0 : Int) ≤ 0 ∧ (1 : Int) ≤ 1 ∧ (1 : Int) ≤ 16) ∧
    ((0 : Int) ≤ 65536 ∧ (1 : Int) ≤ 16 ∧ (16 : Int) ≤ 16) ∧ (-1 : Int) < 0 ∧ (0 : Int) < 1 ∧ (16 : Int) < 17 := by decide
theorem witness_TobitsReassemblesTheValue :
    State.reset.faultReg = none ∧ (0 : Int) ≤ 65536 ∧ (1 : Int) ≤ 16 ∧ (16 : Int) ≤ 16 := by decide
theorem witness_SumbitsCountsOrRefuses :
    State.reset.faultReg = none ∧ allBits [] ∧ allBits [0, 1] ∧ ¬ allBits [2] ∧ ¬ allBits [-1] := by
  simp [allBits]; rfl
theorem witness_OddparAnswersOneForEvenCounts :
    State.reset.faultReg = none ∧ allBits [] ∧ allBits [0, 1] ∧ ¬ allBits [2] ∧ ¬ allBits [-1] :=
  witness_SumbitsCountsOrRefuses
theorem witness_OddparMakesTheTotalOdd : State.reset.faultReg = none := rfl
theorem witness_OddparIsTheXorOfTheBits : State.reset.faultReg = none := rfl
theorem witness_OddparbIsTheParityOfTheByteParities :
    State.reset.faultReg = none ∧ allBytes [] ∧ allBytes [0, 255] ∧ ¬ allBytes [256] ∧ ¬ allBytes [-1] := by
  simp [allBytes]; rfl
theorem witness_OddparbAgainstTheConcatenatedBits : State.reset.faultReg = none := rfl
theorem witness_DecuTakesTheDataPortion : State.reset.faultReg = none ∧ allBits [1, 1, 0, 1, 1, 1, 1, 0, 1] ∧
    [1, 0, 1, 0, 1, 0, 1, 1].length ≠ 9 ∧ ¬ allBits [1, 0, 1, 0, 2, 0, 1, 1, 0] := by
  simp [allBits]; rfl
theorem witness_DecuUndoesTobits : State.reset.faultReg = none := rfl

theorem witness_ConstructErwFollowsItsRule : (demo [] []).faultReg = none ∧ ¬ inRange (demo [] []) (-1) ∧
    ¬ inRange (demo [] []) 4 ∧ inRange (demo [] []) 0 ∧ ¬ allBytes [256] ∧
    (holds (demo [] []) 0 (.held .constructed write1) ∧ allBytes [255]) ∧ holds (demo [] []) 2 .empty ∧
    firstBadField 16 256 ([] : List Int).length = some (.outOfRange .slaveAddress 0 15 16) ∧
    firstBadField 15 255 ([7] : List Int).length = none := by
  simp [inRange, allBytes, holds, demo, State.reset, State.resetWith, firstBadField]
theorem witness_ConstructErrFollowsItsRule : (demo [] []).faultReg = none ∧ ¬ inRange (demo [] []) (-1) ∧
    ¬ inRange (demo [] []) 4 ∧ holds (demo [] []) 1 (.held .constructed read3) ∧ holds (demo [] []) 2 .empty ∧
    firstBadField 15 256 0 = some (.outOfRange .registerAddress 0 255 256) ∧ firstBadField 0 0 16 = none := by
  simp [inRange, holds, demo, State.reset, State.resetWith, firstBadField]
theorem witness_ConstructionNamesTheFirstBadField : (demo [] []).faultReg = none ∧ holds (demo [] []) 2 .empty ∧
    allBytes [] ∧ (0 : Int) = ([] : List Int).length ∧ (¬ ((0 : Int) ≤ 16 ∧ (16 : Int) ≤ 15)) ∧
    ¬ ((0 : Int) ≤ 256 ∧ (256 : Int) ≤ 255) ∧ ¬ ((1 : Int) ≤ -1 ∧ (-1 : Int) ≤ 16) ∧ ((1 : Int) ≤ 16 ∧ (16 : Int) ≤ 16) := by
  simp [allBytes, holds, demo, State.reset, State.resetWith]

/-- Every clause of `slotGuarded` at the edges of its slot indices. -/
theorem guarded : (demo [] []).faultReg = none ∧ ¬ inRange (demo [] []) (-1) ∧ ¬ inRange (demo [] []) 4 ∧
    holds (demo [] []) 2 .empty ∧ holds (demo [] []) 0 (.held .constructed write1) ∧
    holds (demo [] []) 1 (.held .constructed read3) ∧ holds (demo [] []) 3 (.held .executed write3) := by
  simp [inRange, holds, demo, State.reset, State.resetWith]

theorem witness_RdcmdReadsTheFields : (demo [] []).faultReg = none ∧ ¬ inRange (demo [] []) 4 ∧
    holds (demo [] []) 2 .empty ∧ holds (demo [] []) 0 (.held .constructed write1) :=
  ⟨guarded.1, guarded.2.2.1, guarded.2.2.2.1, guarded.2.2.2.2.1⟩
theorem witness_RdpayReadsThePayload : (demo [] []).faultReg = none ∧ ¬ inRange (demo [] []) (-1) ∧
    holds (demo [] []) 2 .empty ∧ holds (demo [] []) 0 (.held .constructed write1) :=
  ⟨guarded.1, guarded.2.1, guarded.2.2.2.1, guarded.2.2.2.2.1⟩
theorem witness_DiscEmptiesTheSlot : (demo [] []).faultReg = none ∧ ¬ inRange (demo [] []) 4 ∧
    holds (demo [] []) 2 .empty ∧ holds (demo [] []) 3 (.held .executed write3) :=
  ⟨guarded.1, guarded.2.2.1, guarded.2.2.2.1, guarded.2.2.2.2.2.2⟩
theorem witness_CmdsfBuildsTheCommandSubFrame : (demo [] []).faultReg = none ∧ ¬ inRange (demo [] []) 4 ∧
    holds (demo [] []) 2 .empty ∧ holds (demo [] []) 1 (.held .constructed read3) :=
  ⟨guarded.1, guarded.2.2.1, guarded.2.2.2.1, guarded.2.2.2.2.2.1⟩
theorem witness_CmdsfParityDependsOnTheVariant : (demo [] []).faultReg = none ∧
    holds (demo [] []) 0 (.held .constructed write1) ∧ holds (demo [] []) 1 (.held .constructed read3) :=
  ⟨guarded.1, guarded.2.2.2.2.1, guarded.2.2.2.2.2.1⟩
theorem witness_CmdsfVariantsDifferOnlyInTheParityBit : (demo [] []).faultReg = none ∧
    holds (demo [] []) 3 (.held .executed write3) ∧ holds (demo [] []) 1 (.held .constructed read3) ∧ write3.kind = .erw ∧
    read3.kind = .err ∧ write3.sa = read3.sa ∧ write3.bc = read3.bc :=
  ⟨guarded.1, guarded.2.2.2.2.2.2, guarded.2.2.2.2.2.1, rfl, rfl, rfl, rfl⟩
theorem witness_AddrsfBuildsTheAddressSubFrame : (demo [] []).faultReg = none ∧ ¬ inRange (demo [] []) 4 ∧
    holds (demo [] []) 2 .empty ∧ holds (demo [] []) 0 (.held .constructed write1) :=
  witness_RdcmdReadsTheFields
theorem witness_DatasfBuildsOneUnitPerByte : (demo [] []).faultReg = none ∧ ¬ inRange (demo [] []) 4 ∧
    holds (demo [] []) 2 .empty ∧ holds (demo [] []) 0 (.held .constructed write1) ∧ write1.wf .constructed ∧
    holds (demo [] []) 1 (.held .constructed read3) :=
  ⟨guarded.1, guarded.2.2.1, guarded.2.2.2.1, guarded.2.2.2.2.1, write1_wf, guarded.2.2.2.2.2.1⟩
theorem witness_FrameConcatenatesTheSubFrames : (demo [] []).faultReg = none ∧ ¬ inRange (demo [] []) 4 ∧
    holds (demo [] []) 2 .empty ∧ holds (demo [] []) 1 (.held .constructed read3) ∧ read3.wf .constructed :=
  ⟨guarded.1, guarded.2.2.1, guarded.2.2.2.1, guarded.2.2.2.2.2.1, read3_wf⟩
theorem witness_FrameUnitsHaveOddParity : (demo [] []).faultReg = none ∧ holds (demo [] []) 3 (.held .executed write3) ∧
    exec (.frame 3) (demo [] []) = .next (okState (demo [] []) (.bits (frame write3))) ∧ 9 + 9 * 3 < (frame write3).length :=
  ⟨guarded.1, guarded.2.2.2.2.2.2, rfl, by decide⟩
/-- The same command held in another state, in another phase and under another alias. -/
theorem witness_FrameDependsOnNoOtherField : (demo [] []).faultReg = none ∧
    holds (demo [] []) 3 (.held .executed write3) ∧
    holds { demo [] [] with slots := [.held .failed { write3 with aliasText := some ['x'] }] } 0
      (.held .failed { write3 with aliasText := some ['x'] }) ∧
    write3.payload = { write3 with aliasText := some ['x'] }.payload :=
  ⟨guarded.1, guarded.2.2.2.2.2.2, ⟨by decide, rfl⟩, rfl⟩
theorem witness_FrameIdentifiesItsCommand : (demo [] []).faultReg = none ∧
    holds (demo [] []) 0 (.held .constructed write1) ∧ write1.wf .constructed ∧
    exec (.frame 0) (demo [] []) = .next (okState (demo [] []) (.bits (frame write1))) :=
  ⟨guarded.1, guarded.2.2.2.2.1, write1_wf, rfl⟩

theorem witness_ExecWriteFollowsItsRule : (demo [.ok] []).faultReg = none ∧ ¬ inRange (demo [.ok] []) 4 ∧
    holds (demo [.ok] []) 2 .empty ∧ holds (demo [.ok] []) 0 (.held .constructed write1) ∧ write1.kind = .erw ∧
    (demo [.ok] []).burstAnswers = .ok :: [] ∧ (demo [.fail ['t']] []).burstAnswers = .fail ['t'] :: [] := by
  simp [inRange, holds, demo, State.reset, State.resetWith, write1]
theorem witness_ExecReadFollowsItsRule :
    let s := demo [.ok] [.units units3]
    s.faultReg = none ∧ ¬ inRange s (-1) ∧ holds s 2 .empty ∧ holds s 1 (.held .constructed read3) ∧ read3.kind = .err ∧
      s.burstAnswers = .ok :: [] ∧ s.captureAnswers = .units units3 :: [] ∧ units3.length = read3.bc.toNat ∧
      (units3.take 2).length ≠ read3.bc.toNat ∧ (demo [.ok] [.fail []]).captureAnswers = .fail [] :: [] := by
  simp [inRange, holds, demo, State.reset, State.resetWith, read3, units3]
theorem witness_CaptureCountMismatchStopsTheBlock :
    let s := demo [.ok] [.units (units3.take 2)]
    s.faultReg = none ∧ holds s 1 (.held .constructed read3) ∧ read3.kind = .err ∧ s.burstAnswers = .ok :: [] ∧
      s.captureAnswers = .units (units3.take 2) :: [] ∧ (units3.take 2).length ≠ read3.bc.toNat ∧
      (Instr.frame 0).isRequest = true := by
  simp [holds, demo, State.reset, State.resetWith, read3, units3, Instr.isRequest]
theorem witness_OnlyACaptureCountSetsTheFaultRegister :
    (after (exec (.exec 1 0 7) (demo [.ok] [.units (units3.take 2)]))).map (·.faultReg)
      = some (some (.captureCountMismatch 1 3 2)) := by decide
theorem witness_CapturedParityIsNeverChecked : (demo [.ok] [.units units3]).captureAnswers = .units units3 :: [] ∧
    units3.map (fun u => u.toNat / 2) = badUnits3.map (fun u => u.toNat / 2) ∧
    ∃ t, exec (.exec 1 0 7) (demo [.ok] [.units units3]) = .next t :=
  ⟨rfl, by decide, _, rfl⟩
theorem witness_ExecIsTheSameFromEveryPhase : holds (demo [.ok] []) 0 (.held .constructed write1) ∧
    ∃ t, exec (.exec 0 0 7) (demo [.ok] []) = .next t := ⟨⟨by decide, rfl⟩, _, rfl⟩
theorem witness_EchoedDataUnitsGiveBackTheBytes :
    let s := demo [.ok] [.units units3]
    s.faultReg = none ∧ holds s 3 (.held .executed write3) ∧ holds s 1 (.held .constructed read3) ∧ write3.kind = .erw ∧
      read3.kind = .err ∧ write3.wf .executed ∧ read3.bc = write3.bc ∧
      exec (.frame 3) s = .next (okState s (.bits (frame write3))) ∧ units3.length = write3.bc.toNat ∧
      (∀ k u, units3[k]? = some u → ∀ n < 8, (frame write3)[18 + 9 * k + n]? = some (u.getLsbD (8 - n))) ∧
      s.burstAnswers = .ok :: [] ∧ s.captureAnswers = .units units3 :: [] := by
  refine ⟨rfl, ⟨by decide, rfl⟩, ⟨by decide, rfl⟩, rfl, rfl, write3_wf, rfl, rfl, by decide, ?_, rfl, rfl⟩
  intro k u h
  match k, h with
  | 0, h => cases h; decide
  | 1, h => cases h; decide
  | 2, h => cases h; decide
  | k + 3, h => simp [units3] at h
theorem witness_ExecWithoutAnAnswerIsStuck : (demo [] []).faultReg = none ∧
    holds (demo [] []) 1 (.held .constructed read3) ∧ (demo [] []).burstAnswers = [] ∧ read3.kind = .err ∧
    (demo [.ok] []).burstAnswers.head? = some .ok ∧ (demo [.ok] []).captureAnswers = [] :=
  ⟨guarded.1, guarded.2.2.2.2.2.1, rfl, rfl, rfl, rfl⟩

/-- One refusal of each reason, and two requests to which several reasons apply. -/
theorem witness_RefusalsHaveNoOtherEffect :
    exec .reservedOp0 (demo [] []) = .next (refusedState (demo [] []) .reservedOp) ∧
    exec (.frame 4) (demo [] []) = .next (refusedState (demo [] []) .badSlot) ∧
    exec (.decu []) (demo [] []) = .next (refusedState (demo [] []) .badOperand) ∧
    exec (.constructErr 0 16 0 1 none) (demo [] []) = .next (refusedState (demo [] []) .slotBusy) ∧
    exec (.exec 2 0 7) (demo [] []) = .next (refusedState (demo [] []) .noCommand) ∧
    exec (.constructErw (-1) 0 0 [256] none) (demo [] []) = .next (refusedState (demo [] []) .badSlot) ∧
    exec (.constructErw 0 0 0 [256] none) (demo [] []) = .next (refusedState (demo [] []) .badOperand) :=
  ⟨rfl, rfl, rfl, rfl, rfl, rfl, rfl⟩
theorem witness_IllTypedOperandsAreRefused : (demo [] []).faultReg = none ∧ slotOperand (.disc 4) = some 4 ∧
    ¬ inRange (demo [] []) 4 ∧ slotOperand (.constructErw 0 0 0 [256] none) = some 0 ∧ inRange (demo [] []) 0 ∧
    (Instr.constructErw 0 0 0 [256] none).isRequest = true ∧ (Instr.constructErw 0 0 0 [256] none).wellFormed = false ∧
    (Instr.constructErw 0 16 (-1) [] none).wellFormed = true := by
  simp [inRange, demo, State.reset, State.resetWith, slotOperand]; decide
theorem witness_OnlyExecCallsTheTransport : (∃ t, exec (.exec 1 0 7) (demo [.ok] [.units units3]) = .next t) ∧
    ∃ t, exec (.disc 0) (demo [.ok] []) = .next t := ⟨⟨_, rfl⟩, _, rfl⟩
theorem witness_PureOperationsRepeat : (∃ t, exec (.frame 0) (demo [] []) = .next t) ∧
    (∃ t, exec (.rdpay 2) (demo [] []) = .next t) ∧ ∃ t, exec (.tobits 5 4) (demo [] []) = .next t :=
  ⟨⟨_, rfl⟩, ⟨_, rfl⟩, _, rfl⟩
theorem witness_ErrorsComeFromTheirOperations :
    outcome (exec (.constructErr 2 16 0 1 none) (demo [] [])) = some (.response (.outOfRange .slaveAddress 0 15 16)) ∧
    outcome (exec (.exec 0 0 7) (demo [.fail ['t']] [])) = some (.response (.transportError ['t'])) := by decide
theorem witness_OutOfRangeChangesNoState :
    outcome (exec (.constructErr 2 0 256 1 none) (demo [] [])) = some (.response (.outOfRange .registerAddress 0 255 256)) ∧
    outcome (exec (.constructErr 2 0 0 17 none) (demo [] [])) = some (.response (.outOfRange .byteCount 1 16 17)) := by decide
theorem witness_TransportErrorMarksTheSlotFailed :
    outcome (exec (.exec 1 0 7) (demo [.fail ['t']] [])) = some (.response (.transportError ['t'])) ∧
    outcome (exec (.exec 1 0 7) (demo [.ok] [.fail ['t']])) = some (.response (.transportError ['t'])) := by decide
theorem witness_OnlyResetClearsTheStickyRegisters :
    let s := { asked [.word (.request 4#4 [.int 2])] with refusedMark := true }
    (∃ t, step s = .next t) ∧ s.pending.head? ≠ some .reset ∧ s.refusedMark = true ∧ s.pending ≠ [] ∧
      (∃ t, step faulted = .next t) ∧ faulted.pending.head? ≠ some .reset ∧ faulted.faultReg ≠ none :=
  ⟨⟨_, rfl⟩, by decide, rfl, by decide, ⟨_, rfl⟩, by decide, by decide⟩

theorem witness_DecodeAndEncodeAgree : (Instr.tobits (-1) 99).encodable = true ∧
    (Instr.extendedRegisterWrite 0#4 1#5).encodable = true ∧ (Instr.extendedRegisterRead 15#4 16#5).encodable = true ∧
    decode (.request 0xA#4 [.int 3]) = .ok (.disc 3) := by decide
theorem witness_CommandWordsDecodeByTheirFields :
    (1 ≤ (1#5).toNat ∧ (1#5).toNat ≤ 16 ∧
      (0b010100000000#12).toNat = (5#4).toNat * 256 + (0#4).toNat * 16 + ((1#5).toNat - 1)) ∧
    (1 ≤ (16#5).toNat ∧ (16#5).toNat ≤ 16 ∧
      (0b001100101111#12).toNat = (3#4).toNat * 256 + (2#4).toNat * 16 + ((16#5).toNat - 1)) ∧
    (0b111111111111#12).toNat = (15#4).toNat * 256 + (15#4).toNat * 16 + ((16#5).toNat - 1) := by decide
theorem witness_CommandWordIsTheParityInput : (demo [] []).faultReg = none ∧
    holds (demo [] []) 1 (.held .constructed read3) ∧ read3.wf .constructed := ⟨guarded.1, guarded.2.2.2.2.2.1, read3_wf⟩
theorem witness_ReservedOpIsRefused : (asked [.word (.request 0#4 [.int 9])]).faultReg = none ∧
    (asked [.word (.request 0#4 [.int 9])]).pending = .word (.request 0#4 [.int 9]) :: [] ∧ 1#4 ≠ 0#4 := by decide
theorem witness_CommandWordsAreNotTaken :
    (asked [.word (.commandWord 0xFFF#12)]).pending = .word (.commandWord 0xFFF#12) :: [] := rfl
theorem witness_MalformedRequestsAreRefused :
    let s := asked [.word (.request 4#4 [.ints []])]
    s.faultReg = none ∧ s.pending = .word (.request 4#4 [.ints []]) :: [] ∧
      decode (.request 4#4 [.ints []]) = .error (.operandShape 4#4) := ⟨rfl, rfl, rfl⟩
theorem witness_StepRunsTheDecodedInstruction :
    (asked [.word (.request 4#4 [.int 0])]).pending = .word (.request 4#4 [.int 0]) :: [] ∧
      decode (.request 4#4 [.int 0]) = .ok (.frame 0) ∧ decodeTableWord 8 4 = some (.frame 0) := ⟨rfl, rfl, rfl⟩
theorem witness_ResetInputRestoresTheResetValues : { faulted with pending := [.reset] }.pending = .reset :: [] := rfl
theorem witness_HeldCommandsKeepTheirFields : holds (demo [.ok] [.units units3]) 1 (.held .constructed read3) ∧
    (∃ t, exec (.exec 1 0 7) (demo [.ok] [.units units3]) = .next t) ∧
    ∃ t, exec (.disc 1) (demo [.ok] [.units units3]) = .next t := ⟨⟨by decide, rfl⟩, ⟨_, rfl⟩, _, rfl⟩
theorem witness_EveryStepKeepsTheInvariant : (asked [.word (.request 3#4 [.int 0, .int 0, .int 7])]).Inv ∧
    ∃ t, step (asked [.word (.request 3#4 [.int 0, .int 0, .int 7])]) = .next t :=
  ⟨⟨(demo_inv [] []).someSlot, (demo_inv [] []).slotsWf, .start, by intro i e g h; cases h⟩, _, rfl⟩
theorem witness_ResetMeetsTheInvariant : 1 ≤ 1 := Nat.le_refl 1
theorem witness_BusAndTimeoutAreOnlyPassedOn : ∃ t, exec (.exec 0 (-1) 7) (demo [.ok] []) = .next t := ⟨_, rfl⟩
theorem witness_ExecuteManyStopsAtTheFirstFailure :
    (∃ t, executeMany [0, 1, 3] 0 7 (demo [.ok, .fail []] []) = .next t) ∧
      (after (executeMany [0, 1, 3] 0 7 (demo [.ok, .fail []] []))).map (fun t => (t.lastWasOk, t.hist.length)) = some (false, 2) :=
  ⟨⟨_, rfl⟩, by decide⟩

end Sys2Proof.Tests
end

/-! PROOFS. What a request does to the slots and to the sticky registers, and from it the statements about the state (10_state.md). -/

namespace Sys2Proof.Machine

variable {s t : State} {i n : Int} {c : Command} {bus : Int} {T : Duration}

/-! ### The state after reset -/

@[simp] theorem resetWith_slots (k : Nat) : (State.resetWith k).slots = List.replicate k .empty := rfl

/-! ### What a request does to the slots -/

/-- After an EXEC that ends in `t`, the slot that held `c` holds `d` in phase `q`: the command is `c` itself, or it is the
read `c` with the captured payload of a request that answered OK (R35 to R37). -/
def LeftByExec (c : Command) (t : State) (q : HeldPhase) (d : Command) : Prop :=
  d = c ∨
    c.kind = .err ∧ q = .executed ∧ t.lastOutcome = some (.response (.ok .none)) ∧
      ∃ ds : List Byte, ds.length = c.bc.toNat ∧ d = { c with payload := ds }

theorem executeWrite_slots (h : executeWrite i c bus T s = .next t) :
    ∃ q, t.slots = s.slots.set i.toNat (.held q c) := by
  obtain ⟨_, _, -, rfl⟩ | ⟨_, -, rfl⟩ := executeWrite_next.mp h
  · exact ⟨.failed, rfl⟩
  · exact ⟨.executed, rfl⟩

/-- A capture-count fault leaves the slots alone; every other end of a capture writes the slot (R256, R257). -/
theorem captureInto_slots (hk : c.kind = .err) (h : captureInto i c bus T s = .next t) :
    t.slots = s.slots ∨ ∃ q d, t.slots = s.slots.set i.toNat (.held q d) ∧ LeftByExec c t q d := by
  obtain ⟨_, _, -, rfl⟩ | ⟨_, _, -, -, rfl⟩ | ⟨us, _, -, hl, rfl⟩ := captureInto_next.mp h
  · exact .inr ⟨.failed, c, rfl, .inl rfl⟩
  · exact .inl rfl
  · have hlen : (us.map capturedByte).length = c.bc.toNat := by rw [List.length_map, hl]
    exact .inr ⟨.executed, _, rfl, .inr ⟨hk, rfl, rfl, _, hlen, rfl⟩⟩

theorem executeRead_slots (hk : c.kind = .err) (h : executeRead i c bus T s = .next t) :
    t.slots = s.slots ∨ ∃ q d, t.slots = s.slots.set i.toNat (.held q d) ∧ LeftByExec c t q d := by
  obtain ⟨_, _, -, rfl⟩ | ⟨_, -, hcap⟩ := executeRead_next.mp h
  · exact .inr ⟨.failed, c, rfl, .inl rfl⟩
  · exact (captureInto_slots hk hcap :)

/-- A construction writes a new command into its slot or leaves the slots alone. -/
theorem constructIn_slots {k : Kind} {sa ra bc : Int} {ds : List Byte} {a : Option Text}
    (h : constructIn i k sa ra bc ds a s = .next t) :
    t.slots = s.slots ∨ ∃ d, t.slots = s.slots.set i.toNat (.held .constructed d) := by
  obtain ⟨_, -, rfl⟩ | ⟨-, rfl⟩ := constructIn_next.mp h
  · exact .inl rfl
  · exact .inr ⟨_, rfl⟩

/-- Everything a request can do to the slots: nothing, fill an EMPTY slot, discard a held command, or run one. -/
theorem exec_slots_cases {instr : Instr} (h : exec instr s = .next t) :
    t.slots = s.slots ∨
      (∃ m d, s.slotAt m = some .empty ∧ t.slots = s.slots.set m.toNat (.held .constructed d)) ∨
      (∃ m p c, instr = .disc m ∧ s.slotAt m = some (.held p c) ∧ t.slots = s.slots.set m.toNat .empty) ∨
      ∃ m bus T p c q d, instr = .exec m bus T ∧ s.slotAt m = some (.held p c) ∧
        t.slots = s.slots.set m.toNat (.held q d) ∧ LeftByExec c t q d := by
  have constructed : ∀ {m : Int}, s.slotAt m = some .empty →
      (t.slots = s.slots ∨ ∃ d, t.slots = s.slots.set m.toNat (.held .constructed d)) →
      t.slots = s.slots ∨ ∃ m d, s.slotAt m = some .empty ∧ t.slots = s.slots.set m.toNat (.held .constructed d) :=
    fun he => Or.imp_right fun ⟨d, hd⟩ => ⟨_, d, he, hd⟩
  obtain ⟨-, ⟨_, rfl⟩ | ⟨_, rfl⟩ | ⟨_, _, _, _, _, _, -, -, he, hc⟩ | ⟨_, _, _, _, _, -, he, hc⟩ |
    ⟨m, p, c, rfl, hm, rfl⟩ | ⟨m, bus, T, p, c, rfl, hm, ⟨-, hw⟩ | ⟨hk, hr⟩⟩⟩ := exec_next_cases h
  case inl => exact .inl rfl
  case inr.inl => exact .inl rfl
  case inr.inr.inl => exact (constructed he (constructIn_slots hc)).imp_right .inl
  case inr.inr.inr.inl => exact (constructed he (constructIn_slots hc)).imp_right .inl
  case inr.inr.inr.inr.inl => exact .inr (.inr (.inl ⟨m, p, c, rfl, hm, rfl⟩))
  case inr.inr.inr.inr.inr.inl =>
    obtain ⟨q, hq⟩ := executeWrite_slots hw
    exact .inr (.inr (.inr ⟨m, bus, T, p, c, q, c, rfl, hm, hq, .inl rfl⟩))
  case inr.inr.inr.inr.inr.inr =>
    obtain hs | ⟨q, d, hq, hd⟩ := executeRead_slots hk hr
    · exact .inl hs
    · exact .inr (.inr (.inr ⟨m, bus, T, p, c, q, d, rfl, hm, hq, hd⟩))

theorem slotAt_of_slots_eq (h : t.slots = s.slots) : t.slotAt n = s.slotAt n := by
  simp only [State.slotAt, h]

/-- A slot that a request wrote holds what was written. -/
theorem slotAt_of_slots_set {x y : Slot} (h : t.slots = s.slots.set n.toNat y) (hx : s.slotAt n = some x) :
    t.slotAt n = some y := by
  obtain ⟨h0, -⟩ := slotAt_eq_some.mp hx
  exact slotAt_eq_some.mpr ⟨h0, by rw [h, List.getElem?_set_self (slotAt_lt hx)]⟩

/-- Writing slot `i` leaves every other slot alone; `0 ≤ i` because `i` names a slot. -/
theorem slotAt_of_slots_set_ne {x y z : Slot} (h : t.slots = s.slots.set i.toNat z) (hi : s.slotAt i = some y)
    (hn : s.slotAt n = some x) (hne : i ≠ n) : t.slotAt n = some x := by
  obtain ⟨hi0, -⟩ := slotAt_eq_some.mp hi
  obtain ⟨hn0, hget⟩ := slotAt_eq_some.mp hn
  have hidx : i.toNat ≠ n.toNat := by omega
  exact slotAt_eq_some.mpr ⟨hn0, by rw [h, List.getElem?_set_ne hidx, hget]⟩

/-- Only a DISC or an EXEC of its own slot touches a slot that holds a command: every request leaves the slot as it is, or is the
DISC that empties it or an EXEC that runs its command. -/
theorem exec_heldSlot_cases {instr : Instr} {p : HeldPhase} (h : exec instr s = .next t)
    (hheld : s.slotAt n = some (.held p c)) :
    t.slotAt n = some (.held p c) ∨
      instr = .disc n ∧ t.slotAt n = some .empty ∨
      ∃ bus T q d, instr = .exec n bus T ∧ t.slotAt n = some (.held q d) ∧ LeftByExec c t q d := by
  obtain hs | ⟨m, _, hm, hs⟩ | ⟨m, _, _, rfl, hm, hs⟩ | ⟨m, bus, T, _, _, q, d, rfl, hm, hs, hd⟩ := exec_slots_cases h
  case inl => exact .inl (slotAt_of_slots_eq hs ▸ hheld)
  case inr.inl =>
    have hne : m ≠ n := by rintro rfl; simp [hm] at hheld
    exact .inl (slotAt_of_slots_set_ne hs hm hheld hne)
  case inr.inr.inl =>
    obtain rfl | hne := eq_or_ne m n
    · exact .inr (.inl ⟨rfl, slotAt_of_slots_set hs hm⟩)
    · exact .inl (slotAt_of_slots_set_ne hs hm hheld hne)
  case inr.inr.inr =>
    obtain rfl | hne := eq_or_ne m n
    · obtain ⟨rfl, rfl⟩ : _ = p ∧ _ = c := by simpa [hm] using hheld
      exact .inr (.inr ⟨bus, T, q, d, rfl, slotAt_of_slots_set hs hm, hd⟩)
    · exact .inl (slotAt_of_slots_set_ne hs hm hheld hne)

/-! ### What a request does to the refusal mark -/

/-- The request that led from `s` to `t` was not refused, and the sticky mark stayed as it was. -/
def NotRefused (s t : State) : Prop := t.refusedMark = s.refusedMark ∧ ∀ r, t.lastOutcome ≠ some (.refusal r)

theorem constructIn_notRefused {k : Kind} {sa ra bc : Int} {ds : List Byte} {a : Option Text}
    (h : constructIn i k sa ra bc ds a s = .next t) : NotRefused s t := by
  obtain ⟨_, -, rfl⟩ | ⟨-, rfl⟩ := constructIn_next.mp h <;> simp [NotRefused]

theorem executeWrite_notRefused (h : executeWrite i c bus T s = .next t) : NotRefused s t := by
  obtain ⟨_, _, -, rfl⟩ | ⟨_, -, rfl⟩ := executeWrite_next.mp h <;> simp [NotRefused]

theorem captureInto_notRefused (h : captureInto i c bus T s = .next t) : NotRefused s t := by
  obtain ⟨_, _, -, rfl⟩ | ⟨_, _, -, -, rfl⟩ | ⟨_, _, -, -, rfl⟩ := captureInto_next.mp h <;> simp [NotRefused]

theorem executeRead_notRefused (h : executeRead i c bus T s = .next t) : NotRefused s t := by
  obtain ⟨_, _, -, rfl⟩ | ⟨_, -, hcap⟩ := executeRead_next.mp h
  · simp [NotRefused]
  · exact (captureInto_notRefused hcap :)

/-- A request is refused, which sets the mark and does nothing else (R303), or it leaves the mark alone. -/
theorem exec_refused_or_notRefused {instr : Instr} (h : exec instr s = .next t) :
    (∃ r, t = s.refusedWith r) ∨ NotRefused s t := by
  obtain ⟨-, hr | ⟨_, rfl⟩ | ⟨_, _, _, _, _, _, -, -, -, hc⟩ | ⟨_, _, _, _, _, -, -, hc⟩ |
    ⟨_, _, _, -, -, rfl⟩ | ⟨_, _, _, _, _, -, -, ⟨-, hw⟩ | ⟨-, hr⟩⟩⟩ := exec_next_cases h
  case inl => exact .inl hr
  case inr.inl => exact .inr (by simp [NotRefused])
  case inr.inr.inl => exact .inr (constructIn_notRefused hc)
  case inr.inr.inr.inl => exact .inr (constructIn_notRefused hc)
  case inr.inr.inr.inr.inl => exact .inr (by simp [NotRefused])
  case inr.inr.inr.inr.inr.inl => exact .inr (executeWrite_notRefused hw)
  case inr.inr.inr.inr.inr.inr => exact .inr (executeRead_notRefused hr)

end Sys2Proof.Machine

namespace Sys2Proof.Spec

open Sys2Proof.Machine

theorem holds_iff_slotAt {s : State} {n : Int} {x : Slot} : holds s n x ↔ s.slotAt n = some x :=
  slotAt_eq_some.symm

/-- Settles O53, by the three things a request can do to a slot that holds a command. -/
theorem heldCommandsKeepTheirFields : Obligations.HeldCommandsKeepTheirFields := by
  intro instr s t n p c hexec hheld
  simp only [holds_iff_slotAt] at hheld ⊢
  obtain ht | ⟨rfl, ht⟩ | ⟨bus, T, q, d, rfl, ht, rfl | ⟨hk, hq, hok, ds, hlen, rfl⟩⟩ := exec_heldSlot_cases hexec hheld
  · exact .inr ⟨p, c, ht, rfl, rfl, rfl, rfl, rfl, by simp, by simp⟩
  · exact .inl ⟨rfl, ht⟩
  · exact .inr ⟨q, d, ht, rfl, rfl, rfl, rfl, rfl, fun _ => ⟨bus, T, rfl⟩, fun hp => absurd rfl hp⟩
  · exact .inr ⟨q, _, ht, rfl, rfl, rfl, rfl, rfl, fun _ => ⟨bus, T, rfl⟩, fun _ => ⟨hk, hq, hlen, hok⟩⟩

/-- Settles O41: a block with a recorded fault takes no request, and a request that is not refused leaves the mark alone. -/
theorem onlyResetClearsTheStickyRegisters : Obligations.OnlyResetClearsTheStickyRegisters := by
  intro s t hstep hnoReset
  obtain ⟨hp, rfl⟩ | ⟨_, hp, -⟩ | ⟨_, more, _, -, -, hexec⟩ | ⟨_, _, r, -, hf, rfl⟩ := step_next_cases hstep
  case inl => exact ⟨id, fun _ => id, fun _ hne => absurd hp hne⟩
  case inr.inl => simp [hp] at hnoReset
  case inr.inr.inl =>
    obtain ⟨hf, -⟩ := exec_next_cases hexec
    have noFault : ∀ f, s.faultReg = some f → t.faultReg = some f := fun f hs => by simp [hs] at hf
    obtain ⟨r, rfl⟩ | ⟨hmark, hout⟩ := exec_refused_or_notRefused hexec
    · exact ⟨fun _ => rfl, noFault, fun _ _ _ => rfl⟩
    · exact ⟨hmark.trans, noFault, fun r _ ho => absurd ho (hout r)⟩
  case inr.inr.inr => exact ⟨fun _ => rfl, fun _ hs => hs, fun _ _ _ => rfl⟩

/-- Settles O50: the slots are `n` copies of EMPTY, and every other value is the one `State.resetWith` lists (R47). -/
theorem resetStateIsAsListed : Obligations.ResetStateIsAsListed := by
  intro n
  have slotsEmpty : ∀ x ∈ (State.resetWith n).slots, x = .empty := by
    rw [resetWith_slots]
    exact fun _ hx => List.eq_of_mem_replicate hx
  exact ⟨by simp, slotsEmpty, rfl, rfl, rfl, rfl⟩

end Sys2Proof.Spec

/-! PROOFS. The command word and the operation codes, and from them two statements about the encodings (30_encoding.md). -/

namespace Sys2Proof.Machine

variable {s : State} {i : Int} {p : HeldPhase} {c : Command}

/-! ### Running the shared operations forward -/

/-- An operation that answers from a held command answers OK and changes nothing else. -/
theorem answerFromHeld_held {out : HeldPhase → Command → Outputs} (hf : s.faultReg = none)
    (h : s.slotAt i = some (.held p c)) :
    answerFromHeld i s out = .next (s.answered (.response (.ok (out p c)))) := by
  rw [answerFromHeld, whenReady_ready hf, onHeld_held h, respond]

theorem execCmdsf_held (hf : s.faultReg = none) (h : s.slotAt i = some (.held p c)) :
    execCmdsf i s = .next (s.answered (.response (.ok (.bits (cmdSubFrame c))))) :=
  answerFromHeld_held hf h

theorem execReservedOp0_ready (hf : s.faultReg = none) : execReservedOp0 s = .next (s.refusedWith .reservedOp) :=
  whenReady_ready hf

theorem step_of_decode {w : PortWord} {more : List PortInput} {instr : Instr} (hp : s.pending = .word w :: more)
    (hd : decode w = .ok instr) : step s = exec instr { s with pending := more } := by
  simp only [step, hp, hd]

/-! ### The command word (R110) -/

@[simp] theorem byteCountFieldWidth_eq (k : Kind) : k.byteCountFieldWidth = 4 := by cases k <;> rfl

@[simp] theorem commandWordBits_length (c : Command) : (commandWordBits c).length = 12 := by simp [commandWordBits]

theorem commandWord_toNat (c : Command) : (commandWord c).toNat = bitsValue (commandWordBits c) := by
  have h := bitsValue_lt (commandWordBits c)
  rw [commandWordBits_length] at h
  rw [commandWord, BitVec.toNat_ofNat, Nat.mod_eq_of_lt h]

/-- The command word's bit sequence packs its value. -/
theorem toBits_commandWord (c : Command) : toBits (commandWord c).toNat 12 = commandWordBits c := by
  rw [commandWord_toNat, ← commandWordBits_length c, toBits_bitsValue]

/-- The three nibbles of the command word, for a byte count that its field can carry. -/
theorem commandWord_toNat_eq_nibbles (h : c.bc.toNat ≤ 16) :
    (commandWord c).toNat = c.sa.toNat * 256 + c.kind.commandCode.toNat * 16 + (c.bc.toNat - 1) := by
  have hsa : c.sa.toNat % 2 ^ 4 = c.sa.toNat := Nat.mod_eq_of_lt c.sa.isLt
  have hcode : c.kind.commandCode.toNat % 2 ^ 4 = c.kind.commandCode.toNat := Nat.mod_eq_of_lt c.kind.commandCode.isLt
  have hbc : (c.bc.toNat - 1) % 2 ^ 4 = c.bc.toNat - 1 := Nat.mod_eq_of_lt (by omega)
  have hcmd : bitsValue c.kind.commandBits = c.kind.commandCode.toNat := by
    cases hk : c.kind <;> rfl
  rw [commandWord_toNat, commandWordBits, bitsValue_append, bitsValue_append, hcmd, bitsValue_toBits, bitsValue_toBits,
    byteCountFieldWidth_eq, toBits_length, commandBits_length, hsa, hbc]
  omega

/-! ### The operation codes (R101, R105) -/

/-- Every operation code decodes with the operand record of its operation. -/
theorem decode_zeroOperands (op : BitVec 4) : ∃ instr, decode (.request op (zeroOperands op)) = .ok instr := by
  have hok : ∀ op : BitVec 4, (decode (.request op (zeroOperands op))).toBool = true := by decide
  cases hd : decode (.request op (zeroOperands op)) with
  | ok instr => exact ⟨instr, rfl⟩
  | error e => simpa [hd, Except.toBool] using hok op

/-- Only code 0x0 decodes to the reserved operation, and it does so with any operands. -/
theorem decodeRequest_eq_reservedOp0 {op : BitVec 4} {ops : List OperandValue} :
    decodeRequest op ops = .ok .reservedOp0 ↔ op = 0#4 := by
  constructor
  · intro h
    unfold decodeRequest at h
    split at h
    · next h0 => exact BitVec.eq_of_toNat_eq h0
    all_goals split at h <;> cases h
  · rintro rfl
    rfl

end Sys2Proof.Machine

namespace Sys2Proof.Spec

open Sys2Proof.Machine

theorem msbFirst_toBits (n w : Nat) : msbFirst n w (toBits n w) :=
  ⟨toBits_length n w, fun k hk => toBits_getElem? n w k hk⟩

theorem setBits_succ (n w : Nat) : setBits n (w + 1) = setBits n w + (n.testBit w).toNat := by
  cases h : n.testBit w <;> simp [setBits, List.range_succ, h]

theorem sumBits_toBits (n w : Nat) : sumBits (toBits n w) = setBits n w := by
  induction w with
  | zero => rfl
  | succ w ih => rw [toBits_succ, sumBits_cons, ih, setBits_succ, Nat.add_comm]

/-- Settles O45: the word's bit sequence packs its value, and CMDSF's last bit is the odd parity of that sequence. -/
theorem commandWordIsTheParityInput : Obligations.CommandWordIsTheParityInput := by
  intro i p c s hf hheld ⟨_, hbc, _⟩
  have hexec := execCmdsf_held hf (holds_iff_slotAt.mp hheld)
  have hbits := toBits_commandWord c
  refine ⟨?value, ?order, _, oddParity (commandWordBits c), hexec, ?parity⟩
  case value =>
    rw [commandWord_toNat_eq_nibbles hbc]
    cases c.kind <;> rfl
  case order => exact hbits ▸ msbFirst_toBits _ _
  case parity =>
    rw [← sumBits_toBits, hbits]
    exact sumBits_with_parity _

/-- Settles O46: code 0x0 is the only one that decodes to the reserved operation, and every code has its operand record. -/
theorem reservedOpIsRefused : Obligations.ReservedOpIsRefused := by
  refine ⟨fun s ops more hf hp => ⟨execReservedOp0_ready hf, ?_⟩, fun op hop => ⟨⟨_, decode_zeroOperands op⟩, ?_⟩⟩
  · have hd : decode (.request 0#4 ops) = .ok .reservedOp0 := (decodeRequest_eq_reservedOp0 (ops := ops)).mpr rfl
    rw [step_of_decode hp hd]
    exact execReservedOp0_ready hf
  · exact fun ops h => hop (decodeRequest_eq_reservedOp0.mp h)

end Sys2Proof.Spec

/-! PROOFS. What the bit-field operations answer, and from it the statements about the bit-field packer (40_bitfield.md). -/

namespace Sys2Proof.Machine

variable {s : State} {v w : Int} {xs : List Int} {b : List Bit}

/-! ### Running the operations forward -/

theorem execTobits_packs (hf : s.faultReg = none) (hv : 0 ≤ v) (hw : 1 ≤ w) (hmax : w ≤ Config.tobitsWmax) :
    execTobits v w s = .next (s.answered (.response (.ok (.bits (toBits v.toNat w.toNat))))) := by
  have hlegal : ¬ (v < 0 ∨ w < 1 ∨ w > Config.tobitsWmax) := by omega
  rw [execTobits, whenReady_ready hf, if_neg hlegal, respond]

theorem execTobits_badOperand (hf : s.faultReg = none) (h : v < 0 ∨ w < 1 ∨ w > Config.tobitsWmax) :
    execTobits v w s = .next (s.refusedWith .badOperand) := by
  rw [execTobits, whenReady_ready hf, if_pos h, refuse]

theorem execSumbits_counts (hf : s.faultReg = none) (h : bitsOfInts xs = some b) :
    execSumbits xs s = .next (s.answered (.response (.ok (.count (sumBits b))))) := by
  simp only [execSumbits, whenReady_ready hf, h, respond]

theorem execSumbits_badOperand (hf : s.faultReg = none) (h : bitsOfInts xs = none) :
    execSumbits xs s = .next (s.refusedWith .badOperand) := by
  simp only [execSumbits, whenReady_ready hf, h, refuse]

/-! ### The value and the sum of a bit sequence -/

/-- The value of a bit sequence is the sum of its bits, each weighted by the power of two of its place (R141). -/
theorem sum_weighted_bits (b : List Bit) :
    ((List.range b.length).map fun k => (b.getD k false).toNat * 2 ^ (b.length - 1 - k)).sum = bitsValue b := by
  induction b with
  | nil => rfl
  | cons x xs ih =>
    have hweight : ∀ k, xs.length - 1 - k = xs.length - (k + 1) := by omega
    rw [bitsValue_cons, ← ih, List.length_cons, List.range_succ_eq_map]
    simp [Function.comp_def, hweight]

theorem sum_bits_as_ints (b : List Bit) : (b.map fun x => if x then (1 : Int) else 0).sum = sumBits b := by
  induction b with
  | nil => rfl
  | cons x xs ih => cases x <;> simp [ih]

end Sys2Proof.Machine

namespace Sys2Proof.Spec

open Sys2Proof.Machine

theorem not_allBits_iff_bitsOfInts {xs : List Int} : ¬ allBits xs ↔ bitsOfInts xs = none :=
  bitsOfInts_eq_none.symm

/-- A list of bits is read as a bit sequence of the same length and the same sum. -/
theorem exists_bits_of_allBits {xs : List Int} (h : allBits xs) :
    ∃ b : List Bit, bitsOfInts xs = some b ∧ b.length = xs.length ∧ (sumBits b : Int) = xs.sum := by
  cases hb : bitsOfInts xs with
  | none => exact absurd h (not_allBits_iff_bitsOfInts.mpr hb)
  | some b =>
    obtain rfl := bitsOfInts_eq_some.mp hb
    exact ⟨b, rfl, (List.length_map _).symm, (sum_bits_as_ints b).symm⟩

/-- Settles O1: a legal request answers the packed bits, and bit `k` of these is bit `w - 1 - k` of the value. -/
theorem tobitsPacksOrRefuses : Obligations.TobitsPacksOrRefuses := by
  refine fun v w s hf => ⟨fun hv hw hmax => ⟨_, execTobits_packs hf hv hw hmax, toBits_length _ _, ?_⟩,
    execTobits_badOperand hf⟩
  intro k hk
  rw [toBits_getElem? _ _ _ hk, Nat.testBit_eq_decide_div_mod_eq]

/-- Settles O2: the weighted sum of a bit sequence is its value, and the value of the packed bits is `v mod 2^w`. -/
theorem tobitsReassemblesTheValue : Obligations.TobitsReassemblesTheValue := by
  intro v w s hf hv hw hmax
  have hlen := toBits_length v.toNat w.toNat
  have hsum := sum_weighted_bits (toBits v.toNat w.toNat)
  rw [hlen, bitsValue_toBits] at hsum
  exact ⟨_, execTobits_packs hf hv hw hmax, hlen, hsum⟩

/-- Settles O3: a list of bits is read as a bit sequence with its sum and its length, and any other list as none. -/
theorem sumbitsCountsOrRefuses : Obligations.SumbitsCountsOrRefuses := by
  refine fun xs s hf => ⟨fun hbits => ?_, fun hbad => execSumbits_badOperand hf (not_allBits_iff_bitsOfInts.mp hbad)⟩
  obtain ⟨b, hread, hlen, hsum⟩ := exists_bits_of_allBits hbits
  exact ⟨sumBits b, execSumbits_counts hf hread, hsum, hlen ▸ sumBits_le_length b⟩

end Sys2Proof.Spec

/-! PROOFS. What the parity operations answer, and from it the statements about the odd-parity generator (41_parity.md). -/

namespace Sys2Proof.Machine

variable {s : State} {xs : List Int} {b : List Bit} {ds : List Byte}

/-! ### Running the operations forward -/

theorem execOddpar_answers (hf : s.faultReg = none) (h : bitsOfInts xs = some b) :
    execOddpar xs s = .next (s.answered (.response (.ok (.bit (oddParity b))))) := by
  simp only [execOddpar, whenReady_ready hf, h, respond]

theorem execOddpar_badOperand (hf : s.faultReg = none) (h : bitsOfInts xs = none) :
    execOddpar xs s = .next (s.refusedWith .badOperand) := by
  simp only [execOddpar, whenReady_ready hf, h, refuse]

theorem execOddparb_answers (hf : s.faultReg = none) (h : bytesOfInts xs = some ds) :
    execOddparb xs s = .next (s.answered (.response (.ok (.bit (oddParityBytes ds))))) := by
  simp only [execOddparb, whenReady_ready hf, h, respond]

theorem execOddparb_badOperand (hf : s.faultReg = none) (h : bytesOfInts xs = none) :
    execOddparb xs s = .next (s.refusedWith .badOperand) := by
  simp only [execOddparb, whenReady_ready hf, h, refuse]

/-! ### The set bits of a list of computed bits -/

theorem sumBits_map {α : Type} (f : α → Bit) (l : List α) : sumBits (l.map f) = l.countP f := by
  rw [sumBits_eq_count, List.count, List.countP_map]
  exact List.countP_congr fun x _ => by simp

end Sys2Proof.Machine

namespace Sys2Proof.Spec

open Sys2Proof.Machine

theorem bitsOfInts_asInts (b : List Bit) : bitsOfInts (asInts b) = some b := bitsOfInts_map b

theorem ones_eq_sumBits (b : List Bit) : ones b = sumBits b := (sumBits_eq_count b).symm

theorem not_allBytes_iff_bytesOfInts {xs : List Int} : ¬ allBytes xs ↔ bytesOfInts xs = none :=
  bytesOfInts_eq_none.symm

/-- A list of bytes is read as a byte sequence with the same values. -/
theorem exists_bytes_of_allBytes {xs : List Int} (h : allBytes xs) :
    ∃ ds : List Byte, bytesOfInts xs = some ds ∧ xs = ds.map fun d => (d.toNat : Int) := by
  cases hd : bytesOfInts xs with
  | none => exact absurd h (not_allBytes_iff_bytesOfInts.mpr hd)
  | some ds => exact ⟨ds, rfl, bytesOfInts_eq_some.mp hd⟩

theorem oddParity_toBits (n w : Nat) : oddParity (toBits n w) = decide (setBits n w % 2 = 0) := by
  rw [oddParity_eq, sumBits_toBits]

/-- A byte whose number of set bits is even has parity bit 1, so the parity of the parity bits is the evenness of the number of
such bytes (R165). -/
theorem oddParityBytes_eq (ds : List Byte) :
    oddParityBytes ds = decide (ds.countP (fun d => setBits d.toNat 8 % 2 = 0) % 2 = 0) := by
  simp only [oddParityBytes, oddParity_toBits, oddParity_eq (ds.map _), sumBits_map]

/-- Settles O4: a list of bits is read as a bit sequence with its sum, whose evenness is the answer. -/
theorem oddparAnswersOneForEvenCounts : Obligations.OddparAnswersOneForEvenCounts := by
  refine fun xs s hf => ⟨fun hbits => ?_, fun hbad => execOddpar_badOperand hf (not_allBits_iff_bitsOfInts.mp hbad)⟩
  obtain ⟨b, hread, -, hsum⟩ := exists_bits_of_allBits hbits
  have heven : sumBits b % 2 = 0 ↔ xs.sum % 2 = 0 := by omega
  have hparity : oddParity b = decide (xs.sum % 2 = 0) := by rw [oddParity_eq, decide_eq_decide.mpr heven]
  exact hparity ▸ execOddpar_answers hf hread

/-- Settles O5: the answer is the odd parity of the sequence, and with it the number of set bits is odd. -/
theorem oddparMakesTheTotalOdd : Obligations.OddparMakesTheTotalOdd := by
  refine fun b s hf => ⟨oddParity b, execOddpar_answers hf (bitsOfInts_asInts b), ?_⟩
  rw [ones_eq_sumBits, sumBits_append, sumBits_cons, sumBits_nil, Nat.add_zero]
  exact sumBits_with_parity b

/-- Settles O7: a list of bytes is read as the byte sequence, and each byte with an even number of set bits adds one set bit. -/
theorem oddparbIsTheParityOfTheByteParities : Obligations.OddparbIsTheParityOfTheByteParities := by
  refine fun xs s hf => ⟨fun hbytes => ?_, fun hbad => execOddparb_badOperand hf (not_allBytes_iff_bytesOfInts.mp hbad)⟩
  obtain ⟨ds, hread, hxs⟩ := exists_bytes_of_allBytes hbytes
  have hcount : xs.countP (fun d : Int => setBits d.toNat 8 % 2 = 0) = ds.countP fun d => setBits d.toNat 8 % 2 = 0 := by
    rw [hxs, List.countP_map]
    rfl
  rw [hcount, ← oddParityBytes_eq]
  exact execOddparb_answers hf hread

end Sys2Proof.Spec

/-! PROOFS. What a construction does, said once for each of its ends, and from it the statements about the two constructions
(42_command.md). -/

namespace Sys2Proof.Machine

variable {s : State} {i sa ra bc : Int} {payload : List Int} {ds : List Byte} {a : Option Text} {k : Kind}
  {p : HeldPhase} {c : Command}

/-! ### Running the constructions forward -/

theorem execConstructErw_badSlot (hf : s.faultReg = none) (h : s.slotAt i = none) :
    execConstructErw i sa ra payload a s = .next (s.refusedWith .badSlot) := by
  simp only [execConstructErw, whenReady_ready hf, h, refuse]

theorem execConstructErw_badOperand {x : Slot} (hf : s.faultReg = none) (h : s.slotAt i = some x)
    (hbytes : bytesOfInts payload = none) :
    execConstructErw i sa ra payload a s = .next (s.refusedWith .badOperand) := by
  simp only [execConstructErw, whenReady_ready hf, h, hbytes, refuse]

theorem execConstructErw_slotBusy (hf : s.faultReg = none) (h : s.slotAt i = some (.held p c))
    (hbytes : bytesOfInts payload = some ds) :
    execConstructErw i sa ra payload a s = .next (s.refusedWith .slotBusy) := by
  simp only [execConstructErw, whenReady_ready hf, h, hbytes, refuse]

theorem execConstructErw_empty (hf : s.faultReg = none) (h : s.slotAt i = some .empty)
    (hbytes : bytesOfInts payload = some ds) :
    execConstructErw i sa ra payload a s = constructIn i .erw sa ra payload.length ds a s := by
  simp only [execConstructErw, whenReady_ready hf, h, hbytes]

theorem execConstructErr_badSlot (hf : s.faultReg = none) (h : s.slotAt i = none) :
    execConstructErr i sa ra bc a s = .next (s.refusedWith .badSlot) := by
  simp only [execConstructErr, whenReady_ready hf, h, refuse]

theorem execConstructErr_slotBusy (hf : s.faultReg = none) (h : s.slotAt i = some (.held p c)) :
    execConstructErr i sa ra bc a s = .next (s.refusedWith .slotBusy) := by
  simp only [execConstructErr, whenReady_ready hf, h, refuse]

theorem execConstructErr_empty (hf : s.faultReg = none) (h : s.slotAt i = some .empty) :
    execConstructErr i sa ra bc a s = constructIn i .err sa ra bc [] a s := by
  simp only [execConstructErr, whenReady_ready hf, h]

theorem constructIn_invalid {e : Response} (h : validate k sa ra bc = some e) :
    constructIn i k sa ra bc ds a s = .next (s.answered (.response e)) :=
  constructIn_next.mpr (.inl ⟨e, h, rfl⟩)

theorem constructIn_valid (h : validate k sa ra bc = none) :
    constructIn i k sa ra bc ds a s
      = .next ((s.setSlot i (.held .constructed (newCommand k sa ra bc ds a))).answered (.response (.ok .none))) :=
  constructIn_next.mpr (.inr ⟨h, rfl⟩)

/-- A construction in an EMPTY slot answers the error of validation, or OK() where there is none. -/
theorem constructIn_answers (i : Int) (k : Kind) (sa ra bc : Int) (ds : List Byte) (a : Option Text) (s : State) :
    ∃ t, constructIn i k sa ra bc ds a s = .next t ∧
      t.lastOutcome = some (.response ((validate k sa ra bc).getD (.ok .none))) := by
  cases h : validate k sa ra bc with
  | some e => exact ⟨_, constructIn_invalid h, rfl⟩
  | none => exact ⟨_, constructIn_valid h, rfl⟩

theorem newCommand_fields_of_validate (ds : List Byte) (a : Option Text) (h : validate k sa ra bc = none) :
    ((newCommand k sa ra bc ds a).sa.toNat : Int) = sa ∧ ((newCommand k sa ra bc ds a).ra.toNat : Int) = ra ∧
      ((newCommand k sa ra bc ds a).bc.toNat : Int) = bc := by
  obtain ⟨-, hsa, hra, hbc⟩ | ⟨-, he⟩ | ⟨-, -, he⟩ | ⟨-, -, -, he⟩ := validate_cases k sa ra bc
  · exact newCommand_fields k ds a hsa hra hbc
  all_goals simp [h] at he

end Sys2Proof.Machine

namespace Sys2Proof.Spec

open Sys2Proof.Machine

/-- `Validate` finds the first bad field of R181's order, with the same limits for both variants. -/
theorem validate_eq_firstBadField (k : Kind) (sa ra bc : Int) : validate k sa ra bc = firstBadField sa ra bc := by
  have hra : k.registerAddressLimit = 255 := by cases k <;> rfl
  have hbc : k.byteCountLimit = 16 := by cases k <;> rfl
  simp only [validate, firstBadField, hra, hbc, Config.saLimit, not_and_or, not_le]

theorem not_inRange_iff_slotAt {s : State} {i : Int} : ¬ inRange s i ↔ s.slotAt i = none :=
  slotAt_eq_none.symm

theorem exists_slotAt_of_inRange {s : State} {i : Int} (h : inRange s i) : ∃ x, s.slotAt i = some x :=
  Option.ne_none_iff_exists'.mp fun hnone => not_inRange_iff_slotAt.mpr hnone h

/-- Settles O11: each end of CONSTRUCT_ERW is one forward lemma, and a validated command has the operands as its fields. -/
theorem constructErwFollowsItsRule : Obligations.ConstructErwFollowsItsRule := by
  intro i sa ra payload a s hf
  simp only [holds_iff_slotAt, ← validate_eq_firstBadField .erw]
  refine ⟨?badSlot, ?badOperand, ?slotBusy, ?outOfRange, ?constructed⟩
  case badSlot => exact fun hi => execConstructErw_badSlot hf (not_inRange_iff_slotAt.mp hi)
  case badOperand =>
    intro hi hbad
    obtain ⟨x, hx⟩ := exists_slotAt_of_inRange hi
    exact execConstructErw_badOperand hf hx (not_allBytes_iff_bytesOfInts.mp hbad)
  case slotBusy =>
    intro p c hheld hbytes
    obtain ⟨ds, hds, -⟩ := exists_bytes_of_allBytes hbytes
    exact execConstructErw_slotBusy hf hheld hds
  case outOfRange =>
    intro e hempty hbytes he
    obtain ⟨ds, hds, -⟩ := exists_bytes_of_allBytes hbytes
    exact (execConstructErw_empty hf hempty hds).trans (constructIn_invalid he)
  case constructed =>
    intro hempty hbytes hvalid
    obtain ⟨ds, hds, hpayload⟩ := exists_bytes_of_allBytes hbytes
    obtain ⟨hsa, hra, hbc⟩ := newCommand_fields_of_validate ds a hvalid
    have hrun := (execConstructErw_empty hf hempty hds).trans (constructIn_valid (a := a) hvalid)
    exact ⟨_, hrun, rfl, hsa, hra, Int.ofNat_inj.mp hbc, hpayload.symm, rfl⟩

/-- Settles O12: each end of CONSTRUCT_ERR is one forward lemma, and a validated command has the operands as its fields. -/
theorem constructErrFollowsItsRule : Obligations.ConstructErrFollowsItsRule := by
  intro i sa ra bc a s hf
  simp only [holds_iff_slotAt, ← validate_eq_firstBadField .err]
  refine ⟨?badSlot, ?slotBusy, ?outOfRange, ?constructed⟩
  case badSlot => exact fun hi => execConstructErr_badSlot hf (not_inRange_iff_slotAt.mp hi)
  case slotBusy => exact fun _ _ hheld => execConstructErr_slotBusy hf hheld
  case outOfRange => exact fun _ hempty he => (execConstructErr_empty hf hempty).trans (constructIn_invalid he)
  case constructed =>
    intro hempty hvalid
    obtain ⟨hsa, hra, hbc⟩ := newCommand_fields_of_validate [] a hvalid
    have hrun := (execConstructErr_empty hf hempty).trans (constructIn_valid (a := a) hvalid)
    exact ⟨_, hrun, rfl, hsa, hra, hbc, rfl, rfl⟩

/-- Settles O13: both variants end in the same construction, which answers what validation finds. -/
theorem constructionNamesTheFirstBadField : Obligations.ConstructionNamesTheFirstBadField := by
  intro i sa ra bc payload a s request hf hempty hrequest
  have hconstruct : ∃ k ds, exec request s = constructIn i k sa ra bc ds a s := by
    obtain ⟨rfl, hbytes, rfl⟩ | rfl := hrequest
    · obtain ⟨ds, hds, -⟩ := exists_bytes_of_allBytes hbytes
      exact ⟨.erw, ds, execConstructErw_empty hf (holds_iff_slotAt.mp hempty) hds⟩
    · exact ⟨.err, [], execConstructErr_empty hf (holds_iff_slotAt.mp hempty)⟩
  obtain ⟨k, ds, hexec⟩ := hconstruct
  obtain ⟨t, hrun, hanswer⟩ := constructIn_answers i k sa ra bc ds a s
  refine ⟨t, hexec.trans hrun, ?_⟩
  rw [hanswer]
  obtain ⟨hv, hsa, hra, hbc⟩ | ⟨hsa, hv⟩ | ⟨hsa, hra, hv⟩ | ⟨hsa, hra, hbc, hv⟩ := validate_cases k sa ra bc
  · simp [hv, hsa, hra, hbc]
  · simp [hv, hsa]
  · simp [hv, hsa, hra]
  · simp [hv, hsa, hra, hbc]

end Sys2Proof.Spec

/-! PROOFS. The guard of the operations on a held command, and from it the statements about the accessors and DISC
(42_command.md). -/

namespace Sys2Proof.Spec

open Sys2Proof.Machine

/-- An operation that runs `onHeld` in a ready block has the two refusals of R188 to R190, so only its end on a held command
is left to show. -/
theorem slotGuarded_of_onHeld {mk : Int → Instr} {result : HeldPhase → Command → Int → State → State → Prop}
    {k : Int → State → HeldPhase → Command → Host.Outcome State Fault Refusal}
    (hexec : ∀ i s, exec (mk i) s = whenReady s (onHeld i s (k i s)))
    (hheld : ∀ p c i s, ∃ t, k i s p c = .next t ∧ result p c i s t) : slotGuarded mk result := by
  intro i s hf
  simp only [hexec, whenReady_ready hf, holds_iff_slotAt, not_inRange_iff_slotAt]
  refine ⟨fun h => onHeld_badSlot h, fun h => onHeld_empty h, fun p c h => ?_⟩
  rw [onHeld_held h]
  exact hheld p c i s

/-- Settles O14: RDCMD answers the held fields, and the name, code and phase are those R188 lists. -/
theorem rdcmdReadsTheFields : Obligations.RdcmdReadsTheFields := by
  refine slotGuarded_of_onHeld (fun _ _ => rfl) fun p ⟨kind, sa, ra, bc, ds, a⟩ i s => ⟨_, rfl, ?_⟩
  cases kind <;> cases p <;> rfl

/-- Settles O15: RDPAY answers the held payload. -/
theorem rdpayReadsThePayload : Obligations.RdpayReadsThePayload :=
  slotGuarded_of_onHeld (fun _ _ => rfl) fun _ _ _ _ => ⟨_, rfl, rfl⟩

/-- Settles O16: DISC writes EMPTY into its slot. -/
theorem discEmptiesTheSlot : Obligations.DiscEmptiesTheSlot :=
  slotGuarded_of_onHeld (fun _ _ => rfl) fun _ _ _ _ => ⟨_, rfl, rfl⟩

end Sys2Proof.Spec

/-! PROOFS. `aliasText` reaches no check, no frame and no transport call, so every operation commutes with replacing it
(R187). -/

namespace Sys2Proof.Spec

open Sys2Proof.Machine

variable {s : State} {i : Int} {c : Command} {bus : Int} {T : Duration}

/-- The same end of a request with every `aliasText` of the next state replaced. -/
def relabelEnd (a : Option Text) : Host.Outcome State Fault Refusal → Host.Outcome State Fault Refusal
  | .next t => .next (relabelState a t)
  | .fault r => .fault r
  | .refused r => .refused r

/-! ### The state's operations -/

@[simp] theorem relabelState_answered (a : Option Text) (s : State) (o : RequestOutcome) :
    relabelState a (s.answered o) = (relabelState a s).answered (relabelOutcome a o) := rfl

theorem relabelState_setSlot (a : Option Text) (s : State) (i : Int) (x : Slot) :
    relabelState a (s.setSlot i x) = (relabelState a s).setSlot i (relabel a x) := by
  simp [relabelState, State.setSlot, List.map_set]

theorem slotAt_relabelState (a : Option Text) (s : State) (i : Int) :
    (relabelState a s).slotAt i = (s.slotAt i).map (relabel a) := by
  unfold State.slotAt
  split <;> simp [relabelState]

/-! ### The ways a request ends -/

/-- A response that carries no `aliasText` is answered alike. -/
theorem respond_relabelState (a : Option Text) {r : Response} (hr : relabelOutcome a (.response r) = .response r) :
    respond r (relabelState a s) = relabelEnd a (respond r s) := by
  simp only [respond, relabelEnd, relabelState_answered, hr]

theorem refuse_relabelState (a : Option Text) (r : RefusalReason) :
    refuse r (relabelState a s) = relabelEnd a (refuse r s) := rfl

theorem whenReady_relabelState (a : Option Text) {k l : Host.Outcome State Fault Refusal} (h : l = relabelEnd a k) :
    whenReady (relabelState a s) l = relabelEnd a (whenReady s k) := by
  cases hf : s.faultReg with
  | none => rw [whenReady_ready hf, whenReady_ready (s := relabelState a s) hf, h]
  | some f => rw [whenReady_faulted hf, whenReady_faulted (s := relabelState a s) hf]; rfl

theorem onHeld_relabelState (a : Option Text) {k l : HeldPhase → Command → Host.Outcome State Fault Refusal}
    (h : ∀ p c, l p { c with aliasText := a } = relabelEnd a (k p c)) :
    onHeld i (relabelState a s) l = relabelEnd a (onHeld i s k) := by
  have hslot := slotAt_relabelState a s i
  rcases hs : s.slotAt i with _ | _ | ⟨p, c⟩ <;> rw [hs] at hslot
  · rw [onHeld_badSlot hs, onHeld_badSlot hslot]; rfl
  · rw [onHeld_empty hs, onHeld_empty hslot]; rfl
  · rw [onHeld_held hs, onHeld_held hslot]; exact h p c

/-- An operation that answers from a held command, and whose answer for another `aliasText` differs in that text alone. -/
theorem answerFromHeld_relabelState (a : Option Text) {out : HeldPhase → Command → Outputs}
    (h : ∀ p c, relabelOutcome a (.response (.ok (out p c))) = .response (.ok (out p { c with aliasText := a }))) :
    answerFromHeld i (relabelState a s) out = relabelEnd a (answerFromHeld i s out) := by
  refine whenReady_relabelState a (onHeld_relabelState a fun p c => ?_)
  simp only [respond, relabelEnd, relabelState_answered, h]

/-! ### Construction -/

/-- An error of validation carries no `aliasText`. -/
theorem relabelOutcome_validate (a : Option Text) {k : Kind} {sa ra bc : Int} {e : Response}
    (h : validate k sa ra bc = some e) : relabelOutcome a (.response e) = .response e := by
  obtain ⟨hv, -⟩ | ⟨-, hv⟩ | ⟨-, -, hv⟩ | ⟨-, -, -, hv⟩ := validate_cases k sa ra bc
  · simp [h] at hv
  all_goals
    obtain rfl := Option.some.inj (h.symm.trans hv)
    rfl

theorem constructIn_relabelState (a b : Option Text) (k : Kind) (sa ra bc : Int) (ds : List Byte) :
    constructIn i k sa ra bc ds a (relabelState a s) = relabelEnd a (constructIn i k sa ra bc ds b s) := by
  cases h : validate k sa ra bc with
  | some e =>
    rw [constructIn_invalid h, constructIn_invalid h]
    exact respond_relabelState a (relabelOutcome_validate a h)
  | none =>
    rw [constructIn_valid h, constructIn_valid h, relabelEnd, relabelState_answered, relabelState_setSlot]
    rfl

theorem execConstructErw_relabelState (a b : Option Text) (sa ra : Int) (payload : List Int) :
    execConstructErw i sa ra payload a (relabelState a s) = relabelEnd a (execConstructErw i sa ra payload b s) := by
  refine whenReady_relabelState a ?_
  rw [slotAt_relabelState]
  rcases s.slotAt i with _ | _ | _
  · rfl
  · cases bytesOfInts payload with
    | none => rfl
    | some ds => exact constructIn_relabelState a b .erw sa ra payload.length ds
  · cases bytesOfInts payload <;> rfl

theorem execConstructErr_relabelState (a b : Option Text) (sa ra bc : Int) :
    execConstructErr i sa ra bc a (relabelState a s) = relabelEnd a (execConstructErr i sa ra bc b s) := by
  refine whenReady_relabelState a ?_
  rw [slotAt_relabelState]
  rcases s.slotAt i with _ | _ | _
  · rfl
  · exact constructIn_relabelState a b .err sa ra bc []
  · rfl

/-! ### Execution -/

/-- The end of a transport call that writes the command back into its slot. -/
theorem respond_setSlot_relabelState (a : Option Text) {r : Response} {p : HeldPhase}
    (hr : relabelOutcome a (.response r) = .response r) :
    respond r ((relabelState a s).setSlot i (.held p { c with aliasText := a }))
      = relabelEnd a (respond r (s.setSlot i (.held p c))) := by
  rw [← respond_relabelState a hr, relabelState_setSlot]
  rfl

/-- No frame contains `aliasText` (R187). -/
theorem frame_withAlias (a : Option Text) (c : Command) : frame { c with aliasText := a } = frame c := rfl

theorem callBurst_relabelState (a : Option Text) (name : Text) (fr : List Bit) :
    callBurst bus name fr T (relabelState a s) = (callBurst bus name fr T s).map (Prod.map id (relabelState a)) := by
  cases hb : s.burstAnswers <;> simp [callBurst, relabelState, hb]

theorem callCapture_relabelState (a : Option Text) (name : Text) (n : Nat) :
    callCapture bus name n T (relabelState a s) = (callCapture bus name n T s).map (Prod.map id (relabelState a)) := by
  cases hq : s.captureAnswers <;> simp [callCapture, relabelState, hq]

theorem executeWrite_relabelState (a : Option Text) :
    executeWrite i { c with aliasText := a } bus T (relabelState a s) = relabelEnd a (executeWrite i c bus T s) := by
  rw [executeWrite, executeWrite, frame_withAlias, callBurst_relabelState]
  rcases callBurst bus (Kind.name .erw) (frame c) T s with _ | ⟨_ | info, s1⟩
  · rfl
  · exact respond_setSlot_relabelState a rfl
  · exact respond_setSlot_relabelState a rfl

theorem captureInto_relabelState (a : Option Text) :
    captureInto i { c with aliasText := a } bus T (relabelState a s) = relabelEnd a (captureInto i c bus T s) := by
  rw [captureInto, captureInto, callCapture_relabelState]
  rcases callCapture bus (Kind.name .err) c.bc.toNat T s with _ | ⟨us | info, s1⟩
  · rfl
  · simp only [Option.map_some, Prod.map, id_eq]
    split
    · rfl
    · exact respond_setSlot_relabelState (c := { c with payload := us.map capturedByte }) a rfl
  · exact respond_setSlot_relabelState a rfl

theorem executeRead_relabelState (a : Option Text) :
    executeRead i { c with aliasText := a } bus T (relabelState a s) = relabelEnd a (executeRead i c bus T s) := by
  rw [executeRead, executeRead, frame_withAlias, callBurst_relabelState]
  rcases callBurst bus (Kind.name .err) (frame c) T s with _ | ⟨_ | info, s1⟩
  · rfl
  · exact captureInto_relabelState a
  · exact respond_setSlot_relabelState a rfl

theorem execExec_relabelState (a : Option Text) :
    execExec i bus T (relabelState a s) = relabelEnd a (execExec i bus T s) := by
  refine whenReady_relabelState a (onHeld_relabelState a fun p ⟨kind, sa, ra, bc, ds, b⟩ => ?_)
  cases kind with
  | erw => exact executeWrite_relabelState a
  | err => exact executeRead_relabelState a

/-! ### Every request -/

theorem exec_relabelState (a : Option Text) (instr : Instr) (s : State) :
    exec (relabelInstr a instr) (relabelState a s) = relabelEnd a (exec instr s) := by
  cases instr with
  | constructErw i sa ra payload b => exact execConstructErw_relabelState a b sa ra payload
  | constructErr i sa ra bc b => exact execConstructErr_relabelState a b sa ra bc
  | exec i bus T => exact execExec_relabelState a
  | frame i => exact answerFromHeld_relabelState a fun _ _ => rfl
  | cmdsf i => exact answerFromHeld_relabelState a fun _ _ => rfl
  | addrsf i => exact answerFromHeld_relabelState a fun _ _ => rfl
  | datasf i => exact answerFromHeld_relabelState a fun _ _ => rfl
  | rdcmd i => exact answerFromHeld_relabelState a fun _ _ => rfl
  | rdpay i => exact answerFromHeld_relabelState a fun _ _ => rfl
  | disc i =>
    refine whenReady_relabelState a (onHeld_relabelState a fun p c => ?_)
    rw [← respond_relabelState a rfl, relabelState_setSlot]
    rfl
  | tobits v w =>
    refine whenReady_relabelState a ?_
    split
    · exact refuse_relabelState a _
    · exact respond_relabelState a rfl
  | sumbits b =>
    refine whenReady_relabelState a ?_
    cases bitsOfInts b <;> rfl
  | oddpar b =>
    refine whenReady_relabelState a ?_
    cases bitsOfInts b <;> rfl
  | oddparb b =>
    refine whenReady_relabelState a ?_
    cases bytesOfInts b <;> rfl
  | decu u =>
    refine whenReady_relabelState a ?_
    cases bitsOfInts u with
    | none => rfl
    | some bs =>
      simp only
      split
      · exact refuse_relabelState a _
      · exact respond_relabelState a rfl
  | reservedOp0 => exact whenReady_relabelState a (refuse_relabelState a _)
  | extendedRegisterWrite sa bc => rfl
  | extendedRegisterRead sa bc => rfl

/-- Settles O56: every operation commutes with replacing `aliasText` in its operand and in the state, arm by arm. -/
theorem theAliasAffectsNothingElse : Obligations.TheAliasAffectsNothingElse := by
  intro instr a s
  rw [exec_relabelState]
  cases exec instr s <;> rfl

end Sys2Proof.Spec

/-! PROOFS. What the frame assembler's operations answer from a held command, and from it the statements about the sub-frames and
the frame (43_frame.md). -/

namespace Sys2Proof.Machine

variable {s : State} {i : Int} {p : HeldPhase} {c : Command}

/-! ### Running the operations forward -/

theorem execAddrsf_held (hf : s.faultReg = none) (h : s.slotAt i = some (.held p c)) :
    execAddrsf i s = .next (s.answered (.response (.ok (.bits (addrSubFrame c))))) :=
  answerFromHeld_held hf h

theorem execDatasf_held (hf : s.faultReg = none) (h : s.slotAt i = some (.held p c)) :
    execDatasf i s = .next (s.answered (.response (.ok (.bits (dataSubFrame c))))) :=
  answerFromHeld_held hf h

/-! ### The lengths of a held command's data -/

/-- A well-formed write owns `bc` payload bytes in every phase (R36). -/
theorem payload_length_of_wf (hk : c.kind = .erw) (h : c.wf p) : c.payload.length = c.bc.toNat := by
  obtain ⟨-, -, hpayload⟩ := h
  rw [hk] at hpayload
  exact hpayload

theorem frame_length_of_wf_erw (hk : c.kind = .erw) (h : c.wf p) : (frame c).length = 18 + 9 * c.bc.toNat := by
  rw [frame_length_erw hk, payload_length_of_wf hk h]

end Sys2Proof.Machine

namespace Sys2Proof.Spec

open Sys2Proof.Machine

/-- An operation that answers from a held command keeps its two guards, so only what it answers for a held command is left to
show. -/
theorem slotGuarded_of_answerFromHeld {mk : Int → Instr} {result : HeldPhase → Command → Int → State → State → Prop}
    {out : HeldPhase → Command → Outputs} (hexec : ∀ i s, exec (mk i) s = answerFromHeld i s out)
    (hresult : ∀ p c i s, s.faultReg = none → holds s i (.held p c) → result p c i s (okState s (out p c))) :
    slotGuarded mk result := by
  have hanswer : slotGuarded mk fun p c _ s t => t = okState s (out p c) :=
    slotGuarded_of_onHeld hexec fun _ _ _ _ => ⟨_, rfl, rfl⟩
  intro i s hf
  obtain ⟨hbadSlot, hnoCommand, hheld⟩ := hanswer i s hf
  refine ⟨hbadSlot, hnoCommand, fun p c h => ?_⟩
  obtain ⟨_, hrun, rfl⟩ := hheld p c h
  exact ⟨_, hrun, hresult p c i s hf h⟩

/-! ### The parity bits of the sub-frames -/

/-- The parity of the command word counts the set bits of its three fields, the code's with them (R221). -/
theorem oddParity_commandWordBits (c : Command) :
    oddParity (commandWordBits c) = decide ((setBits c.sa.toNat 4 + setBits c.kind.commandCode.toNat 4
      + setBits (c.bc.toNat - 1) 4) % 2 = 0) := by
  have hcode : sumBits c.kind.commandBits = setBits c.kind.commandCode.toNat 4 := by
    cases c.kind <;> exact sumBits_toBits _ 4
  rw [oddParity_eq, commandWordBits, sumBits_append, sumBits_append, hcode, sumBits_toBits, sumBits_toBits,
    byteCountFieldWidth_eq]

theorem unitOf_byteUnit (d : Nat) : unitOf d (byteUnit d) :=
  ⟨toBits d 8, msbFirst_toBits d 8, by rw [byteUnit, oddParity_toBits]⟩

/-! ### The operations -/

/-- Settles O17: the two emitted fields are packed by `toBits`, and the parity bit is that of the whole command word. -/
theorem cmdsfBuildsTheCommandSubFrame : Obligations.CmdsfBuildsTheCommandSubFrame := by
  refine slotGuarded_of_answerFromHeld (fun _ _ => rfl) fun _ c _ _ _ _ =>
    ⟨toBits c.sa.toNat 4, toBits (c.bc.toNat - 1) 4, msbFirst_toBits _ _, msbFirst_toBits _ _, ?_⟩
  rw [cmdSubFrame, oddParity_commandWordBits, byteCountFieldWidth_eq]
  cases c.kind <;> rfl

/-- Settles O20: the address sub-frame is the unit of the register-address byte. -/
theorem addrsfBuildsTheAddressSubFrame : Obligations.AddrsfBuildsTheAddressSubFrame :=
  slotGuarded_of_answerFromHeld (fun _ _ => rfl) fun _ c _ _ _ _ =>
    ⟨byteUnit c.ra.toNat, unitOf_byteUnit _, by rw [addrSubFrame_eq]⟩

/-- Settles O21: the units of a write are those of its payload's bytes, and a read has none. -/
theorem datasfBuildsOneUnitPerByte : Obligations.DatasfBuildsOneUnitPerByte := by
  refine slotGuarded_of_answerFromHeld (fun _ _ => rfl) fun p c _ s _ _ => ?_
  cases hk : c.kind with
  | err => exact congrArg (fun b => okState s (.bits b)) (dataSubFrame_err hk)
  | erw =>
    refine ⟨c.payload.map fun d => byteUnit d.toNat, List.length_map _, fun k d hd => ?unit, fun hwf => ?count, ?answer⟩
    case unit => exact ⟨byteUnit d.toNat, by rw [List.getElem?_map, hd, Option.map_some], unitOf_byteUnit _⟩
    case count => rw [List.length_map, payload_length_of_wf hk hwf]
    case answer => rw [dataSubFrame_erw hk, List.flatMap_def]

/-- Settles O22: the frame is defined as the three sub-frames in wire order, and each of the three operations answers its own. -/
theorem frameConcatenatesTheSubFrames : Obligations.FrameConcatenatesTheSubFrames := by
  refine slotGuarded_of_answerFromHeld (fun _ _ => rfl) fun p c i s hf hheld => ?_
  have hslot := holds_iff_slotAt.mp hheld
  refine ⟨_, _, _, execCmdsf_held hf hslot, execAddrsf_held hf hslot, execDatasf_held hf hslot, rfl,
    cmdSubFrame_length c, addrSubFrame_length c, fun hwf => ?_⟩
  cases hk : c.kind with
  | erw => exact frame_length_of_wf_erw hk hwf
  | err => exact frame_length_err hk

end Sys2Proof.Spec

/-! PROOFS. What EXEC does for each answer of the transport, and from it the statements about executing a write and a read
(44_execute.md). -/

namespace Sys2Proof.Machine

variable {s t : State} {i : Int} {p : HeldPhase} {c : Command} {bus : Int} {T : Duration}

/-! ### Running EXEC forward -/

theorem execExec_badSlot (hf : s.faultReg = none) (h : s.slotAt i = none) :
    execExec i bus T s = .next (s.refusedWith .badSlot) := by
  rw [execExec, whenReady_ready hf, onHeld_badSlot h]

theorem execExec_noCommand (hf : s.faultReg = none) (h : s.slotAt i = some .empty) :
    execExec i bus T s = .next (s.refusedWith .noCommand) := by
  rw [execExec, whenReady_ready hf, onHeld_empty h]

theorem execExec_erw (hf : s.faultReg = none) (h : s.slotAt i = some (.held p c)) (hk : c.kind = .erw) :
    execExec i bus T s = executeWrite i c bus T s := by
  simp only [execExec, whenReady_ready hf, onHeld_held h, hk]

theorem execExec_err (hf : s.faultReg = none) (h : s.slotAt i = some (.held p c)) (hk : c.kind = .err) :
    execExec i bus T s = executeRead i c bus T s := by
  simp only [execExec, whenReady_ready hf, onHeld_held h, hk]

theorem execFrame_held (hf : s.faultReg = none) (h : s.slotAt i = some (.held p c)) :
    execFrame i s = .next (s.answered (.response (.ok (.bits (frame c))))) :=
  answerFromHeld_held hf h

/-! ### Two transports that answer a capture with the same bytes -/

/-- The bytes a read stores are the upper eight bits of the captured units (R258, R259). -/
theorem map_capturedByte (us : List CapturedUnit) :
    us.map capturedByte = us.map fun u => BitVec.ofNat 8 (u.toNat / 2) :=
  List.map_congr_left fun u _ => capturedByte_eq u

/-- Units that differ only in their parity bits are stored as the same bytes (R258). -/
theorem map_capturedByte_congr {us vs : List CapturedUnit}
    (h : us.map (fun u => u.toNat / 2) = vs.map fun u => u.toNat / 2) : us.map capturedByte = vs.map capturedByte := by
  have hbytes := congrArg (List.map (BitVec.ofNat 8)) h
  rw [List.map_map, List.map_map] at hbytes
  rw [map_capturedByte, map_capturedByte]
  exact hbytes

/-- `s` with other captures to come from the transport. -/
def State.withCaptures (s : State) (answers : List CaptureAnswer) : State := { s with captureAnswers := answers }

/-- `o` ends in a next state that differs from `t` only in the transport's log and its remaining captures. -/
def EndsUpToCaptures (o : Host.Outcome State Fault Refusal) (t : State) : Prop :=
  ∃ log answers, o = .next { t with hist := log, captureAnswers := answers }

/-- An EXEC of a write takes no capture, so the transport's captures do not matter to it. -/
theorem executeWrite_upToCaptures (h : executeWrite i c bus T s = .next t) (answers : List CaptureAnswer) :
    EndsUpToCaptures (executeWrite i c bus T (s.withCaptures answers)) t := by
  obtain ⟨info, rest, hb, rfl⟩ | ⟨rest, hb, rfl⟩ := executeWrite_next.mp h
  · exact ⟨_, _, executeWrite_next.mpr (.inl ⟨info, rest, hb, rfl⟩)⟩
  · exact ⟨_, _, executeWrite_next.mpr (.inr ⟨rest, hb, rfl⟩)⟩

variable {us vs : List CapturedUnit} {rest : List CaptureAnswer}

theorem captureInto_upToCaptures (h : captureInto i c bus T s = .next t)
    (hq : s.captureAnswers = .units us :: rest) (hbytes : us.map capturedByte = vs.map capturedByte) :
    EndsUpToCaptures (captureInto i c bus T (s.withCaptures (.units vs :: rest))) t := by
  have hlen : us.length = vs.length := by simpa using congrArg List.length hbytes
  obtain ⟨_, _, hq', -⟩ | ⟨us', _, hq', hne, rfl⟩ | ⟨us', _, hq', heq, rfl⟩ := captureInto_next.mp h
  case inl => simp [hq] at hq'
  case inr.inl =>
    obtain ⟨rfl, -⟩ : us = us' ∧ rest = _ := by simpa [hq] using hq'
    rw [hlen] at hne ⊢
    exact ⟨_, _, captureInto_next.mpr (.inr (.inl ⟨vs, rest, rfl, hne, rfl⟩))⟩
  case inr.inr =>
    obtain ⟨rfl, -⟩ : us = us' ∧ rest = _ := by simpa [hq] using hq'
    rw [hlen] at heq
    rw [hbytes]
    exact ⟨_, _, captureInto_next.mpr (.inr (.inr ⟨vs, rest, rfl, heq, rfl⟩))⟩

theorem executeRead_upToCaptures (h : executeRead i c bus T s = .next t)
    (hq : s.captureAnswers = .units us :: rest) (hbytes : us.map capturedByte = vs.map capturedByte) :
    EndsUpToCaptures (executeRead i c bus T (s.withCaptures (.units vs :: rest))) t := by
  obtain ⟨info, bursts, hb, rfl⟩ | ⟨bursts, hb, hcap⟩ := executeRead_next.mp h
  · exact ⟨_, _, executeRead_next.mpr (.inl ⟨info, bursts, hb, rfl⟩)⟩
  · obtain ⟨log, answers, hrun⟩ := captureInto_upToCaptures hcap hq hbytes
    exact ⟨log, answers, executeRead_next.mpr (.inr ⟨bursts, hb, hrun⟩)⟩

/-- Only the bytes of a capture reach the rest of the block, whatever EXEC finds in its slot (R258). -/
theorem execExec_upToCaptures (h : execExec i bus T s = .next t)
    (hq : s.captureAnswers = .units us :: rest) (hbytes : us.map capturedByte = vs.map capturedByte) :
    EndsUpToCaptures (execExec i bus T (s.withCaptures (.units vs :: rest))) t := by
  obtain ⟨hf, ⟨hs, rfl⟩ | ⟨hs, rfl⟩ | ⟨p, c, hs, ⟨hk, hw⟩ | ⟨hk, hr⟩⟩⟩ := execExec_next h
  · exact ⟨_, _, execExec_badSlot hf hs⟩
  · exact ⟨_, _, execExec_noCommand hf hs⟩
  · rw [execExec_erw (s := s.withCaptures (.units vs :: rest)) hf hs hk]
    exact executeWrite_upToCaptures hw _
  · rw [execExec_err (s := s.withCaptures (.units vs :: rest)) hf hs hk]
    exact executeRead_upToCaptures hr hq hbytes

end Sys2Proof.Machine

namespace Sys2Proof.Spec

open Sys2Proof.Machine

/-- Settles O26: EXEC of a held write is `executeWrite`, with one end per answer to its burst. -/
theorem execWriteFollowsItsRule : Obligations.ExecWriteFollowsItsRule := by
  intro i bus T s hf
  simp only [holds_iff_slotAt, not_inRange_iff_slotAt]
  refine ⟨execExec_badSlot hf, execExec_noCommand hf, fun p c hs hk => ⟨frame c, execFrame_held hf hs, ?ok, ?fail⟩⟩
  case ok =>
    intro rest hb
    exact (execExec_erw hf hs hk).trans (executeWrite_next.mpr (.inr ⟨rest, hb, rfl⟩))
  case fail =>
    intro info rest hb
    exact (execExec_erw hf hs hk).trans (executeWrite_next.mpr (.inl ⟨info, rest, hb, rfl⟩))

/-- Settles O27: EXEC of a held read is `executeRead`, which ends with its failed burst or as its capture half does. -/
theorem execReadFollowsItsRule : Obligations.ExecReadFollowsItsRule := by
  intro i bus T s hf
  simp only [holds_iff_slotAt, not_inRange_iff_slotAt, ← map_capturedByte]
  refine ⟨execExec_badSlot hf, execExec_noCommand hf, fun p c hs hk => ⟨frame c, execFrame_held hf hs, ?_⟩⟩
  have hread : exec (.exec i bus T) s = executeRead i c bus T s := execExec_err hf hs hk
  have hlog : ∀ e e' : Event, s.hist ++ [e, e'] = s.hist ++ [e] ++ [e'] := fun e e' => by simp
  simp only [hread, hlog]
  refine ⟨?burstFail, ?captureFail, ?otherCount, ?captured⟩
  case burstFail => exact fun info rest hb => executeRead_next.mpr (.inl ⟨info, rest, hb, rfl⟩)
  case captureFail =>
    intro info rest rest' hb hq
    exact executeRead_next.mpr (.inr ⟨rest, hb, captureInto_next.mpr (.inl ⟨info, rest', hq, rfl⟩)⟩)
  case otherCount =>
    intro us rest rest' hb hq hne
    exact executeRead_next.mpr (.inr ⟨rest, hb, captureInto_next.mpr (.inr (.inl ⟨us, rest', hq, hne, rfl⟩))⟩)
  case captured =>
    intro us rest rest' hb hq heq
    exact executeRead_next.mpr (.inr ⟨rest, hb, captureInto_next.mpr (.inr (.inr ⟨us, rest', hq, heq, rfl⟩))⟩)

/-- Settles O30: the two captures are stored as the same bytes, so the two runs differ only in the log and the captures left. -/
theorem capturedParityIsNeverChecked : Obligations.CapturedParityIsNeverChecked := by
  rintro i bus T s _ us vs rest t hq rfl hdata hexec
  obtain ⟨_, _, hrun⟩ := execExec_upToCaptures hexec hq (map_capturedByte_congr hdata)
  exact ⟨_, hrun, rfl, rfl, rfl, rfl, rfl⟩

end Sys2Proof.Spec

/-! PROOFS. Which requests are refused and why, what a response other than OK says, and where `executeMany` stops; from these the
statements about errors, faults and refusals (60_exceptions.md). -/

namespace Sys2Proof.Machine

variable {s t : State} {i : Int} {T : Duration} {bus : Int} {c : Command} {r : Response} {xs : List Int}

/-! ### Running the refusals forward -/

theorem answerFromHeld_badSlot {out : HeldPhase → Command → Outputs} (hf : s.faultReg = none) (h : s.slotAt i = none) :
    answerFromHeld i s out = .next (s.refusedWith .badSlot) := by
  rw [answerFromHeld, whenReady_ready hf, onHeld_badSlot h]

theorem answerFromHeld_noCommand {out : HeldPhase → Command → Outputs} (hf : s.faultReg = none)
    (h : s.slotAt i = some .empty) : answerFromHeld i s out = .next (s.refusedWith .noCommand) := by
  rw [answerFromHeld, whenReady_ready hf, onHeld_empty h]

theorem execDisc_badSlot (hf : s.faultReg = none) (h : s.slotAt i = none) :
    execDisc i s = .next (s.refusedWith .badSlot) := by
  rw [execDisc, whenReady_ready hf, onHeld_badSlot h]

theorem execDisc_noCommand (hf : s.faultReg = none) (h : s.slotAt i = some .empty) :
    execDisc i s = .next (s.refusedWith .noCommand) := by
  rw [execDisc, whenReady_ready hf, onHeld_empty h]

/-! ### Operands outside their types -/

theorem all_isBit_eq_false : xs.all isBit = false ↔ bitsOfInts xs = none := by
  simp [bitsOfInts_eq_none, isBit]

theorem all_isByte_eq_false : xs.all isByte = false ↔ bytesOfInts xs = none := by
  simp [bytesOfInts_eq_none, isByte]

theorem bitsOfInts_length {b : List Bit} (h : bitsOfInts xs = some b) : b.length = xs.length := by
  rw [bitsOfInts_eq_some.mp h, List.length_map]

theorem slotIndexOk_of_slotAt {x : Slot} (h : s.slotAt i = some x) : slotIndexOk i = true :=
  decide_eq_true (slotAt_eq_some.mp h).1

theorem tobits_wellFormed_eq_false {v w : Int} :
    (Instr.tobits v w).wellFormed = false ↔ v < 0 ∨ w < 1 ∨ w > Config.tobitsWmax := by
  simp only [Instr.wellFormed, valueOk, widthOk, Bool.and_eq_false_iff, decide_eq_false_iff_not]
  omega

/-- DECU refuses what is no list of bits, and a list of bits of another length than 9 (R103). -/
theorem unitOk_eq_false :
    unitOk xs = false ↔ bitsOfInts xs = none ∨ ∃ b, bitsOfInts xs = some b ∧ b.length ≠ Config.unitWidth := by
  rw [unitOk, Bool.and_eq_false_iff, all_isBit_eq_false]
  cases hb : bitsOfInts xs with
  | none => simp
  | some b => simp [bitsOfInts_length hb]

theorem execDecu_badOperand (hf : s.faultReg = none) (h : unitOk xs = false) :
    execDecu xs s = .next (s.refusedWith .badOperand) := by
  obtain hnone | ⟨b, hb, hlen⟩ := unitOk_eq_false.mp h
  · simp only [execDecu, whenReady_ready hf, hnone, refuse]
  · simp only [execDecu, whenReady_ready hf, hb, if_pos hlen, refuse]

/-! ### What a request that ends in a refusal met -/

theorem refuse_reason {q r : RefusalReason} (h : refuse q s = .next t) (ho : t.lastOutcome = some (.refusal r)) :
    q = r := by
  simpa [refuse_next.mp h] using ho

theorem respond_ne_refusal {r : RefusalReason} {a : Response} (h : respond a s = .next t) :
    t.lastOutcome ≠ some (.refusal r) := by
  simp [respond_next.mp h]

/-- A held command's operation is refused only by its guard, when what it does with the command refuses nothing. -/
theorem onHeld_refusal {k : HeldPhase → Command → Host.Outcome State Fault Refusal} {r : RefusalReason}
    (hk : ∀ p c, k p c = .next t → t.lastOutcome ≠ some (.refusal r)) (h : onHeld i s k = .next t)
    (ho : t.lastOutcome = some (.refusal r)) :
    s.slotAt i = none ∧ r = .badSlot ∨ s.slotAt i = some .empty ∧ r = .noCommand := by
  obtain ⟨hs, rfl⟩ | ⟨hs, rfl⟩ | ⟨p, c, -, hrun⟩ := onHeld_next h
  · exact .inl ⟨hs, by simpa using ho.symm⟩
  · exact .inr ⟨hs, by simpa using ho.symm⟩
  · exact absurd ho (hk p c hrun)

/-! ### What a response other than OK says -/

/-- `instr` is a construction in slot `n` that validates `sa`, `ra` and `bc` (R183 to R185). -/
def Constructs (instr : Instr) (n sa ra bc : Int) : Prop :=
  (∃ bs a, instr = .constructErw n sa ra bs a ∧ bc = bs.length) ∨ ∃ a, instr = .constructErr n sa ra bc a

/-- What an EXEC of `c`, held in slot `n`, leaves when the transport answered FAIL to one of its calls (R295). -/
def TransportFailed (n bus : Int) (T : Duration) (c : Command) (info : Text) (s t : State) : Prop :=
  t.slots = s.slots.set n.toNat (.held .failed c) ∧ t.faultReg = s.faultReg ∧ t.refusedMark = s.refusedMark ∧
    ((∃ name fr, t.hist = s.hist ++ [.burst bus name fr T (.fail info)] ∧ t.captureAnswers = s.captureAnswers) ∨
      c.kind = .err ∧ ∃ name fr m,
        t.hist = s.hist ++ [.burst bus name fr T .ok, .capture bus name m T (.fail info)])

theorem constructIn_response {k : Kind} {sa ra bc : Int} {ds : List Byte} {a : Option Text}
    (h : constructIn i k sa ra bc ds a s = .next t) (ho : t.lastOutcome = some (.response r)) :
    r = .ok .none ∨ validate k sa ra bc = some r ∧ t = s.answered (.response r) := by
  obtain ⟨e, he, rfl⟩ | ⟨-, rfl⟩ := constructIn_next.mp h
  · obtain rfl : e = r := by simpa using ho
    exact .inr ⟨he, rfl⟩
  · exact .inl (by simpa using ho.symm)

theorem executeWrite_response (h : executeWrite i c bus T s = .next t) (ho : t.lastOutcome = some (.response r)) :
    r = .ok .none ∨ ∃ info, r = .transportError info ∧ TransportFailed i bus T c info s t := by
  obtain ⟨info, _, -, rfl⟩ | ⟨_, -, rfl⟩ := executeWrite_next.mp h
  · exact .inr ⟨info, by simpa using ho.symm, rfl, rfl, rfl, .inl ⟨_, _, rfl, rfl⟩⟩
  · exact .inl (by simpa using ho.symm)

theorem executeRead_response (hk : c.kind = .err) (h : executeRead i c bus T s = .next t)
    (ho : t.lastOutcome = some (.response r)) :
    r = .ok .none ∨ ∃ info, r = .transportError info ∧ TransportFailed i bus T c info s t := by
  obtain ⟨info, _, -, rfl⟩ | ⟨_, -, hcap⟩ := executeRead_next.mp h
  · exact .inr ⟨info, by simpa using ho.symm, rfl, rfl, rfl, .inl ⟨_, _, rfl, rfl⟩⟩
  obtain ⟨info, _, -, rfl⟩ | ⟨_, _, -, -, rfl⟩ | ⟨_, _, -, -, rfl⟩ := captureInto_next.mp hcap
  · exact .inr ⟨info, by simpa using ho.symm, rfl, rfl, rfl, .inr ⟨hk, _, _, _, List.append_assoc ..⟩⟩
  · simp at ho
  · exact .inl (by simpa using ho.symm)

/-- Everything a request that ends in a response can answer: OK, the error of a construction's validation in an EMPTY slot, or
the transport's failure in an EXEC of a held command (R291, R295, R296). -/
theorem exec_response_cases {instr : Instr} (h : exec instr s = .next t) (ho : t.lastOutcome = some (.response r)) :
    (∃ out, r = .ok out) ∨
      (∃ k n sa ra bc, Constructs instr n sa ra bc ∧ s.slotAt n = some .empty ∧ validate k sa ra bc = some r ∧
        t = s.answered (.response r)) ∨
      ∃ n bus T p c info, instr = .exec n bus T ∧ s.slotAt n = some (.held p c) ∧ r = .transportError info ∧
        TransportFailed n bus T c info s t := by
  obtain ⟨-, ⟨_, rfl⟩ | ⟨out, rfl⟩ | ⟨n, sa, ra, bs, a, _, rfl, -, he, hc⟩ | ⟨n, sa, ra, bc, a, rfl, he, hc⟩ |
    ⟨_, _, _, -, -, rfl⟩ | ⟨n, bus, T, p, c, rfl, hs, hrun⟩⟩ := exec_next_cases h
  case inl => simp at ho
  case inr.inl => exact .inl ⟨out, by simpa using ho.symm⟩
  case inr.inr.inl =>
    obtain hok | ⟨hv, ht⟩ := constructIn_response hc ho
    · exact .inl ⟨_, hok⟩
    · exact .inr (.inl ⟨_, n, sa, ra, _, .inl ⟨bs, a, rfl, rfl⟩, he, hv, ht⟩)
  case inr.inr.inr.inl =>
    obtain hok | ⟨hv, ht⟩ := constructIn_response hc ho
    · exact .inl ⟨_, hok⟩
    · exact .inr (.inl ⟨_, n, sa, ra, bc, .inr ⟨a, rfl⟩, he, hv, ht⟩)
  case inr.inr.inr.inr.inl => exact .inl ⟨_, by simpa using ho.symm⟩
  case inr.inr.inr.inr.inr =>
    have hend : r = .ok .none ∨ ∃ info, r = .transportError info ∧ TransportFailed n bus T c info s t :=
      hrun.elim (fun ⟨_, hw⟩ => executeWrite_response hw ho) fun ⟨hk, hr⟩ => executeRead_response hk hr ho
    obtain hok | ⟨info, hr, hfail⟩ := hend
    · exact .inl ⟨_, hok⟩
    · exact .inr (.inr ⟨n, bus, T, p, c, info, rfl, hs, hr, hfail⟩)

/-- An error of validation names a field with its code and bounds, and the operand outside these (R180, R291). -/
theorem validate_eq_some {k : Kind} {sa ra bc : Int} (h : validate k sa ra bc = some r) :
    ∃ f lo hi x, r = .outOfRange f lo hi x ∧ ¬ (lo ≤ x ∧ x ≤ hi) ∧
      (f.code = 0 ∧ lo = 0 ∧ hi = 15 ∧ x = sa ∨ f.code = 1 ∧ lo = 0 ∧ hi = 255 ∧ x = ra ∨
        f.code = 2 ∧ lo = 1 ∧ hi = 16 ∧ x = bc) := by
  obtain ⟨hv, -⟩ | ⟨hbad, hv⟩ | ⟨-, hbad, hv⟩ | ⟨-, -, hbad, hv⟩ := validate_cases k sa ra bc <;>
    cases hv.symm.trans h
  · exact ⟨_, _, _, _, rfl, hbad, .inl ⟨rfl, rfl, rfl, rfl⟩⟩
  · exact ⟨_, _, _, _, rfl, hbad, .inr (.inl ⟨rfl, rfl, rfl, rfl⟩)⟩
  · exact ⟨_, _, _, _, rfl, hbad, .inr (.inr ⟨rfl, rfl, rfl, rfl⟩)⟩

/-! ### The host's sequence of EXECs (R313) -/

/-- From `s`, the EXECs of the slots `done` run in order through the states `mid`, and each but the last answers OK. -/
def RunsInOrder (bus : Int) (T : Duration) (done : List Int) (s : State) (mid : List State) : Prop :=
  ∀ k n before after, done[k]? = some n → (s :: mid)[k]? = some before → mid[k]? = some after →
    exec (.exec n bus T) before = .next after ∧ (after.lastWasOk = true ∨ k + 1 = done.length)

theorem runsInOrder_nil : RunsInOrder bus T [] s [] := by
  intro k n before after hn
  simp at hn

theorem runsInOrder_cons {u : State} {done : List Int} {mid : List State}
    (hfirst : exec (.exec i bus T) s = .next u) (hok : u.lastWasOk = true ∨ done = [])
    (hrest : RunsInOrder bus T done u mid) : RunsInOrder bus T (i :: done) s (u :: mid) := by
  intro k n before after hn hbefore hafter
  cases k with
  | zero =>
    cases hn; cases hbefore; cases hafter
    exact ⟨hfirst, hok.imp_right fun hnil => by simp [hnil]⟩
  | succ k =>
    obtain ⟨hrun, hend⟩ := hrest k n before after hn hbefore hafter
    exact ⟨hrun, hend.imp_right (congrArg (· + 1))⟩

/-- The first EXEC of the list runs; the others run from where it ended, if it answered OK. -/
theorem executeMany_cons_next {is : List Int} (h : executeMany (i :: is) bus T s = .next t) :
    ∃ u, exec (.exec i bus T) s = .next u ∧
      (u.lastWasOk = true ∧ executeMany is bus T u = .next t ∨ u.lastWasOk = false ∧ t = u) := by
  simp only [executeMany, expandExecMany, List.map_cons, issueUntilNotOk] at h
  split at h
  · next u hu =>
    refine ⟨u, hu, ?_⟩
    split at h
    · next hok => exact .inl ⟨hok, h⟩
    · next hnot => exact .inr ⟨by simpa using hnot, by cases h; rfl⟩
  · cases h
  · cases h

end Sys2Proof.Machine

namespace Sys2Proof.Spec

open Sys2Proof.Machine

variable {s t : State} {i : Instr} {n : Int} {r : RefusalReason}

/-! ### Requests to which a reason of R303's table applies -/

theorem exec_badSlot (hf : s.faultReg = none) (hn : slotOperand i = some n) (hs : s.slotAt n = none) :
    exec i s = .next (s.refusedWith .badSlot) := by
  cases i <;> cases hn
  case constructErw => exact execConstructErw_badSlot hf hs
  case constructErr => exact execConstructErr_badSlot hf hs
  case exec => exact execExec_badSlot hf hs
  case disc => exact execDisc_badSlot hf hs
  all_goals exact answerFromHeld_badSlot hf hs

/-- Where the slot operand, if any, names a slot, an operand outside its type is the first reason (R103). -/
theorem exec_badOperand (hf : s.faultReg = none) (hslot : ∀ n, slotOperand i = some n → ∃ x, s.slotAt n = some x)
    (hreq : i.isRequest = true) (hbad : i.wellFormed = false) : exec i s = .next (s.refusedWith .badOperand) := by
  have indexOk : ∀ {n}, slotOperand i = some n → slotIndexOk n = true := fun hn =>
    (hslot _ hn).elim fun _ hx => slotIndexOk_of_slotAt hx
  cases i with
  | constructErw n sa ra payload a =>
    obtain ⟨x, hx⟩ := hslot n rfl
    simp only [Instr.wellFormed, indexOk rfl, Bool.true_and] at hbad
    exact execConstructErw_badOperand hf hx (all_isByte_eq_false.mp hbad)
  | tobits v w => exact execTobits_badOperand hf (tobits_wellFormed_eq_false.mp hbad)
  | sumbits b => exact execSumbits_badOperand hf (all_isBit_eq_false.mp hbad)
  | oddpar b => exact execOddpar_badOperand hf (all_isBit_eq_false.mp hbad)
  | oddparb bytes => exact execOddparb_badOperand hf (all_isByte_eq_false.mp hbad)
  | decu u => exact execDecu_badOperand hf hbad
  | reservedOp0 => cases hbad
  | extendedRegisterWrite sa bc => cases hreq
  | extendedRegisterRead sa bc => cases hreq
  | _ => exact absurd (indexOk rfl) (Bool.eq_false_iff.mp hbad)

/-- A construction with operands inside their types in a slot that holds a command (R186). -/
theorem exec_slotBusy {p : HeldPhase} {c : Command} (hf : s.faultReg = none) (hi : isConstruct i)
    (hwf : i.wellFormed = true) (hn : slotOperand i = some n) (hs : s.slotAt n = some (.held p c)) :
    exec i s = .next (s.refusedWith .slotBusy) := by
  obtain ⟨_, _, _, payload, _, rfl⟩ | ⟨_, _, _, _, _, rfl⟩ := hi <;> cases hn
  · simp only [Instr.wellFormed, Bool.and_eq_true] at hwf
    have hbytes : bytesOfInts payload ≠ none := fun h => by simp [all_isByte_eq_false.mpr h] at hwf
    obtain ⟨ds, hds⟩ := Option.ne_none_iff_exists'.mp hbytes
    exact execConstructErw_slotBusy hf hs hds
  · exact execConstructErr_slotBusy hf hs

theorem exec_noCommand (hf : s.faultReg = none) (hi : ¬ isConstruct i) (hn : slotOperand i = some n)
    (hs : s.slotAt n = some .empty) : exec i s = .next (s.refusedWith .noCommand) := by
  cases i <;> cases hn
  case constructErw => exact absurd (.inl ⟨_, _, _, _, _, rfl⟩) hi
  case constructErr => exact absurd (.inr ⟨_, _, _, _, _, rfl⟩) hi
  case exec => exact execExec_noCommand hf hs
  case disc => exact execDisc_noCommand hf hs
  all_goals exact answerFromHeld_noCommand hf hs

theorem isRequest_of_isConstruct (h : isConstruct i) : i.isRequest = true := by
  obtain ⟨_, _, _, _, _, rfl⟩ | ⟨_, _, _, _, _, rfl⟩ := h <;> rfl

/-- The first of the reasons that apply, in R307's order, is the reason of the refusal. -/
theorem exec_refused_of_first (hf : s.faultReg = none) (hr : applies r i s)
    (hfirst : ∀ q, applies q i s → precedence r ≤ precedence q) : exec i s = .next (s.refusedWith r) := by
  have notApplies : ∀ q, precedence q < precedence r → ¬ applies q i s := fun q hlt hq =>
    Nat.not_lt.mpr (hfirst q hq) hlt
  cases r with
  | reservedOp =>
    obtain rfl : i = .reservedOp0 := hr
    exact execReservedOp0_ready hf
  | badSlot =>
    obtain ⟨n, hn, hout⟩ := hr
    exact exec_badSlot hf hn (not_inRange_iff_slotAt.mp hout)
  | badOperand =>
    obtain ⟨hreq, hbad⟩ := hr
    have hslot : ∀ n, slotOperand i = some n → inRange s n := fun n hn =>
      by_contra fun hout => notApplies .badSlot (by decide) ⟨n, hn, hout⟩
    exact exec_badOperand hf (fun n hn => exists_slotAt_of_inRange (hslot n hn)) hreq hbad
  | slotBusy =>
    obtain ⟨hi, n, p, c, hn, hs⟩ := hr
    have hwf : i.wellFormed = true := Bool.eq_true_of_not_eq_false fun hbad =>
      notApplies .badOperand (by decide) ⟨isRequest_of_isConstruct hi, hbad⟩
    exact exec_slotBusy hf hi hwf hn (holds_iff_slotAt.mp hs)
  | noCommand =>
    obtain ⟨hi, n, hn, hs⟩ := hr
    exact exec_noCommand hf hi hn (holds_iff_slotAt.mp hs)

/-! ### Requests that were refused -/

theorem applies_badSlot (hn : slotOperand i = some n) (hs : s.slotAt n = none) : applies .badSlot i s :=
  ⟨n, hn, not_inRange_iff_slotAt.mpr hs⟩

/-- An operation on a held command, refused, met one of its guard's two reasons. -/
theorem applies_of_onHeld {k : HeldPhase → Command → Host.Outcome State Fault Refusal}
    (hn : slotOperand i = some n) (hi : ¬ isConstruct i) (hexec : exec i s = whenReady s (onHeld n s k))
    (hk : ∀ p c, k p c = .next t → t.lastOutcome ≠ some (.refusal r)) (h : exec i s = .next t)
    (ho : t.lastOutcome = some (.refusal r)) : applies r i s := by
  obtain ⟨-, hrun⟩ := whenReady_next.mp (hexec.symm.trans h)
  obtain ⟨hs, rfl⟩ | ⟨hs, rfl⟩ := onHeld_refusal hk hrun ho
  · exact applies_badSlot hn hs
  · exact ⟨hi, n, hn, holds_iff_slotAt.mpr hs⟩

theorem applies_of_refuse_badOperand (hreq : i.isRequest = true) (hbad : i.wellFormed = false)
    (h : refuse .badOperand s = .next t) (ho : t.lastOutcome = some (.refusal r)) : applies r i s := by
  obtain rfl := refuse_reason h ho
  exact ⟨hreq, hbad⟩

theorem applies_of_refused (h : exec i s = .next t) (ho : t.lastOutcome = some (.refusal r)) : applies r i s := by
  cases i with
  | constructErw n sa ra payload a =>
    obtain ⟨-, hrun⟩ := whenReady_next.mp h
    split at hrun
    · next hs =>
      obtain rfl := refuse_reason hrun ho
      exact applies_badSlot rfl hs
    · next _ hbytes =>
      refine applies_of_refuse_badOperand rfl ?_ hrun ho
      rw [Instr.wellFormed, all_isByte_eq_false.mpr hbytes, Bool.and_false]
    · next p c _ hs _ =>
      obtain rfl := refuse_reason hrun ho
      exact ⟨.inl ⟨_, _, _, _, _, rfl⟩, n, p, c, rfl, holds_iff_slotAt.mpr hs⟩
    · exact absurd ho ((constructIn_notRefused hrun).2 r)
  | constructErr n sa ra bc a =>
    obtain ⟨-, hrun⟩ := whenReady_next.mp h
    split at hrun
    · next hs =>
      obtain rfl := refuse_reason hrun ho
      exact applies_badSlot rfl hs
    · next p c hs =>
      obtain rfl := refuse_reason hrun ho
      exact ⟨.inr ⟨_, _, _, _, _, rfl⟩, n, p, c, rfl, holds_iff_slotAt.mpr hs⟩
    · exact absurd ho ((constructIn_notRefused hrun).2 r)
  | exec n bus T =>
    refine applies_of_onHeld rfl (by simp [isConstruct]) rfl (fun p c hrun => ?_) h ho
    cases hk : c.kind with
    | erw => rw [hk] at hrun; exact (executeWrite_notRefused hrun).2 r
    | err => rw [hk] at hrun; exact (executeRead_notRefused hrun).2 r
  | disc n =>
    exact applies_of_onHeld rfl (by simp [isConstruct]) rfl (fun _ _ hrun => respond_ne_refusal hrun) h ho
  | tobits v w =>
    obtain ⟨-, hrun⟩ := whenReady_next.mp h
    split at hrun
    · next hbad => exact applies_of_refuse_badOperand rfl (tobits_wellFormed_eq_false.mpr hbad) hrun ho
    · exact absurd ho (respond_ne_refusal hrun)
  | sumbits b =>
    obtain ⟨-, hrun⟩ := whenReady_next.mp h
    split at hrun
    · next hbits => exact applies_of_refuse_badOperand rfl (all_isBit_eq_false.mpr hbits) hrun ho
    · exact absurd ho (respond_ne_refusal hrun)
  | oddpar b =>
    obtain ⟨-, hrun⟩ := whenReady_next.mp h
    split at hrun
    · next hbits => exact applies_of_refuse_badOperand rfl (all_isBit_eq_false.mpr hbits) hrun ho
    · exact absurd ho (respond_ne_refusal hrun)
  | oddparb bytes =>
    obtain ⟨-, hrun⟩ := whenReady_next.mp h
    split at hrun
    · next hbytes => exact applies_of_refuse_badOperand rfl (all_isByte_eq_false.mpr hbytes) hrun ho
    · exact absurd ho (respond_ne_refusal hrun)
  | decu u =>
    obtain ⟨-, hrun⟩ := whenReady_next.mp h
    split at hrun
    · next hbits => exact applies_of_refuse_badOperand rfl (unitOk_eq_false.mpr (.inl hbits)) hrun ho
    · next b hbits =>
      split at hrun
      · next hlen => exact applies_of_refuse_badOperand rfl (unitOk_eq_false.mpr (.inr ⟨b, hbits, hlen⟩)) hrun ho
      · exact absurd ho (respond_ne_refusal hrun)
  | reservedOp0 =>
    obtain ⟨-, hrun⟩ := whenReady_next.mp h
    obtain rfl := refuse_reason hrun ho
    exact rfl
  | extendedRegisterWrite sa bc => cases h
  | extendedRegisterRead sa bc => cases h
  | _ n => exact applies_of_onHeld rfl (by simp [isConstruct]) rfl (fun _ _ hrun => respond_ne_refusal hrun) h ho

/-- Settles O34: a refused request met a reason of the table, and the first reason that applies refuses it. -/
theorem refusalsHaveNoOtherEffect : Obligations.RefusalsHaveNoOtherEffect := by
  refine fun i s => ⟨fun r t h ho => ⟨?_, applies_of_refused h ho⟩, fun r hf => exec_refused_of_first hf⟩
  obtain ⟨q, rfl⟩ | hnot := exec_refused_or_notRefused h
  · obtain rfl : q = r := by simpa using ho
    rfl
  · exact absurd ho (hnot.2 r)

/-! ### Errors and sequences -/

theorem isConstruct_of_constructs {sa ra bc : Int} (h : Constructs i n sa ra bc) : isConstruct i := by
  obtain ⟨bs, a, rfl, -⟩ | ⟨a, rfl⟩ := h
  · exact .inl ⟨_, _, _, _, _, rfl⟩
  · exact .inr ⟨_, _, _, _, _, rfl⟩

/-- Settles O38: a response is OK, what a construction's validation found, or an EXEC's transport failure. -/
theorem errorsComeFromTheirOperations : Obligations.ErrorsComeFromTheirOperations := by
  intro i s t r h ho
  obtain hok | ⟨_, _, _, _, _, hcons, -, hv, -⟩ | ⟨n, bus, T, _, _, info, rfl, -, hr, -⟩ := exec_response_cases h ho
  · exact .inl hok
  · obtain ⟨f, lo, up, x, hr, -⟩ := validate_eq_some hv
    exact .inr (.inl ⟨⟨f, lo, up, x, hr⟩, isConstruct_of_constructs hcons⟩)
  · exact .inr (.inr ⟨⟨info, hr⟩, n, bus, T, rfl⟩)

/-- Settles O39: only a construction's validation answers OutOfRangeError, and it leaves the state but for the answer. -/
theorem outOfRangeChangesNoState : Obligations.OutOfRangeChangesNoState := by
  intro i s t f lo up x h ho
  obtain ⟨_, hr⟩ | ⟨_, n, sa, ra, bc, hcons, hempty, hv, rfl⟩ | ⟨_, _, _, _, _, _, -, -, hr, -⟩ := exec_response_cases h ho
  · cases hr
  · obtain ⟨_, _, _, _, hr, hbad, hfield⟩ := validate_eq_some hv
    cases hr
    exact ⟨rfl, n, sa, ra, bc, hcons, holds_iff_slotAt.mpr hempty, hbad, hfield⟩
  · cases hr

/-- Settles O40: only an EXEC whose transport call failed answers TransportError. -/
theorem transportErrorMarksTheSlotFailed : Obligations.TransportErrorMarksTheSlotFailed := by
  intro i s t info h ho
  obtain ⟨_, hr⟩ | ⟨_, _, _, _, _, -, -, hv, -⟩ | ⟨n, bus, T, p, c, _, rfl, hs, hr, hfail⟩ := exec_response_cases h ho
  · cases hr
  · obtain ⟨_, _, _, _, hr, -⟩ := validate_eq_some hv
    cases hr
  · cases hr
    exact ⟨n, bus, T, p, c, rfl, holds_iff_slotAt.mpr hs, hfail⟩

/-- Settles O58, by induction on the list of slots: the first EXEC ends the run, or the rest of the list runs from its end. -/
theorem executeManyStopsAtTheFirstFailure : Obligations.ExecuteManyStopsAtTheFirstFailure := by
  intro is bus T s t h
  induction is generalizing s with
  | nil =>
    cases h
    exact ⟨[], [], [], rfl, rfl, rfl, runsInOrder_nil, fun hne => absurd rfl hne⟩
  | cons i is ih =>
    obtain ⟨u, hu, ⟨hok, hrest⟩ | ⟨hnot, rfl⟩⟩ := executeMany_cons_next h
    · obtain ⟨done, left, mid, rfl, hlen, hlast, hruns, hleft⟩ := ih u hrest
      exact ⟨i :: done, left, u :: mid, rfl, congrArg (· + 1) hlen, by rwa [List.getLast?_cons_cons],
        runsInOrder_cons hu (.inl hok) hruns, fun hne => ⟨(hleft hne).1, List.cons_ne_nil _ _⟩⟩
    · exact ⟨[i], is, [t], rfl, rfl, rfl, runsInOrder_cons hu (.inr rfl) runsInOrder_nil,
        fun _ => ⟨hnot, List.cons_ne_nil _ _⟩⟩

end Sys2Proof.Spec

/-! PROOFS. Frames as sequences of units, and from these the statements about what a frame identifies, what it depends on and its
parity bits (30_encoding.md, 43_frame.md). -/

namespace Sys2Proof.Machine

variable {p q : HeldPhase} {c d : Command}

/-! ### Bits that identify what they pack -/

/-- The packed bits of a value that fits identify it. -/
theorem toBits_inj {v v' w : Nat} (hv : v < 2 ^ w) (hv' : v' < 2 ^ w) (h : toBits v w = toBits v' w) : v = v' := by
  have hval := congrArg bitsValue h
  rwa [bitsValue_toBits, bitsValue_toBits, Nat.mod_eq_of_lt hv, Nat.mod_eq_of_lt hv'] at hval

theorem byteUnit_inj {d e : Byte} (h : byteUnit d.toNat = byteUnit e.toNat) : d = e := by
  obtain ⟨hbits, -⟩ := List.append_inj h (by simp)
  exact BitVec.eq_of_toNat_eq (toBits_inj d.isLt e.isLt hbits)

/-- The units of a byte sequence identify it, because every unit has nine bits. -/
theorem flatMap_byteUnit_inj {ds es : List Byte}
    (h : ds.flatMap (fun d => byteUnit d.toNat) = es.flatMap fun d => byteUnit d.toNat) : ds = es := by
  induction ds generalizing es with
  | nil =>
    have hlen := congrArg List.length h
    rw [flatMap_byteUnit_length, flatMap_byteUnit_length, List.length_nil] at hlen
    exact (List.eq_nil_of_length_eq_zero (by omega)).symm
  | cons d ds ih =>
    cases es with
    | nil =>
      have hlen := congrArg List.length h
      rw [flatMap_byteUnit_length, flatMap_byteUnit_length, List.length_cons, List.length_nil] at hlen
      omega
    | cons e es =>
      obtain ⟨hunit, hrest⟩ := List.append_inj h (by simp)
      rw [byteUnit_inj hunit, ih hrest]

/-! ### The fields that the sub-frames identify -/

/-- The byte count of a well-formed command (R32). -/
theorem bc_of_wf (h : c.wf p) : 1 ≤ c.bc.toNat ∧ c.bc.toNat ≤ 16 := by
  obtain ⟨hlow, hhigh, -⟩ := h
  exact ⟨hlow, hhigh⟩

theorem fields_of_cmdSubFrame_eq (hc : c.wf p) (hd : d.wf q) (h : cmdSubFrame c = cmdSubFrame d) :
    c.sa = d.sa ∧ c.bc = d.bc := by
  have hcbc := bc_of_wf hc
  have hdbc := bc_of_wf hd
  obtain ⟨hfields, -⟩ := List.append_inj h (by simp)
  obtain ⟨hsa, hbc⟩ := List.append_inj hfields (by simp)
  rw [byteCountFieldWidth_eq, byteCountFieldWidth_eq] at hbc
  have hcount := toBits_inj (by omega) (by omega) hbc
  exact ⟨BitVec.eq_of_toNat_eq (toBits_inj c.sa.isLt d.sa.isLt hsa), BitVec.eq_of_toNat_eq (by omega)⟩

theorem ra_of_addrSubFrame_eq (h : addrSubFrame c = addrSubFrame d) : c.ra = d.ra := by
  rw [addrSubFrame_eq, addrSubFrame_eq] at h
  exact byteUnit_inj h

/-- Only a write's frame is longer than 18 bits: it carries at least one data unit, a read's carries none. -/
theorem kind_eq_erw_iff_frame_length (h : c.wf p) : c.kind = .erw ↔ 18 < (frame c).length := by
  have hbc := bc_of_wf h
  cases hk : c.kind with
  | erw =>
    rw [frame_length_of_wf_erw hk h]
    exact iff_of_true rfl (by omega)
  | err =>
    rw [frame_length_err hk]
    exact iff_of_false (by decide) (by decide)

theorem kind_of_frame_length_eq (hc : c.wf p) (hd : d.wf q) (h : (frame c).length = (frame d).length) :
    c.kind = d.kind := by
  have hiff : c.kind = .erw ↔ d.kind = .erw := by
    rw [kind_eq_erw_iff_frame_length hc, kind_eq_erw_iff_frame_length hd, h]
  cases hdk : d.kind with
  | erw => exact hiff.mpr hdk
  | err =>
    cases hck : c.kind with
    | erw => exact absurd (hiff.mp hck) (by simp [hdk])
    | err => rfl

/-- A frame is cut back into its three sub-frames, whose first two have nine bits. -/
theorem subFrames_of_frame_eq (h : frame c = frame d) :
    cmdSubFrame c = cmdSubFrame d ∧ addrSubFrame c = addrSubFrame d ∧ dataSubFrame c = dataSubFrame d := by
  obtain ⟨hhead, hdata⟩ := List.append_inj h (by simp)
  obtain ⟨hcmd, haddr⟩ := List.append_inj hhead (by simp)
  exact ⟨hcmd, haddr, hdata⟩

/-! ### The parity of the command sub-frame -/

theorem sumBits_commandBits (k : Kind) : sumBits k.commandBits = match k with | .erw => 0 | .err => 1 := by
  cases k <;> rfl

/-- The two emitted fields and the parity bit have as many set bits as the command word with its parity bit, which is odd, less
those of the command code, which is not emitted. -/
theorem sumBits_cmdSubFrame (c : Command) : (sumBits (cmdSubFrame c) + sumBits c.kind.commandBits) % 2 = 1 := by
  have hodd := sumBits_with_parity (commandWordBits c)
  have hword : sumBits (commandWordBits c) = sumBits (toBits c.sa.toNat Config.saWidth) + sumBits c.kind.commandBits
      + sumBits (toBits (c.bc.toNat - 1) c.kind.byteCountFieldWidth) := by
    rw [commandWordBits, sumBits_append, sumBits_append]
  simp only [cmdSubFrame, sumBits_append, sumBits_cons, sumBits_nil]
  omega

/-- Between the variants the command word's parity changes: their codes differ in one bit (R119). -/
theorem oddParity_commandWordBits_of_kinds (hc : c.kind = .erw) (hd : d.kind = .err) (hsa : c.sa = d.sa)
    (hbc : c.bc = d.bc) : oddParity (commandWordBits d) = !oddParity (commandWordBits c) := by
  have herw : oddParity (Kind.commandBits .erw) = true := rfl
  have herr : oddParity (Kind.commandBits .err) = false := rfl
  simp only [commandWordBits, oddParity_append, byteCountFieldWidth_eq, hc, hd, hsa, hbc, herw, herr]
  simp

/-! ### The units of a frame from bit 9 on -/

/-- The bytes whose units follow the command sub-frame: the register address and, for a write, the payload. -/
def unitBytes (c : Command) : List Byte := c.ra :: match c.kind with | .erw => c.payload | .err => []

theorem frame_eq_units (c : Command) : frame c = cmdSubFrame c ++ (unitBytes c).flatMap fun d => byteUnit d.toNat := by
  rw [frame, List.append_assoc, addrSubFrame_eq, unitBytes, List.flatMap_cons]
  cases hk : c.kind with
  | erw => rw [dataSubFrame_erw hk]
  | err => rw [dataSubFrame_err hk]; rfl

/-- The `k`-th nine bits of a sequence of units are the `k`-th byte's unit. -/
theorem unit_of_flatMap_byteUnit {ds : List Byte} {k : Nat} {d : Byte} (h : ds[k]? = some d) :
    ((ds.flatMap fun d => byteUnit d.toNat).drop (9 * k)).take 9 = byteUnit d.toNat := by
  induction ds generalizing k with
  | nil => simp at h
  | cons e ds ih =>
    rw [List.flatMap_cons]
    cases k with
    | zero =>
      obtain rfl : e = d := by simpa using h
      exact List.take_left' (byteUnit_length _)
    | succ k =>
      have hskip : 9 * (k + 1) = (byteUnit e.toNat).length + 9 * k := by rw [byteUnit_length]; omega
      rw [hskip, List.drop_length_add_append]
      exact ih h

/-- The `k`-th nine bits of a frame after its command sub-frame are the unit of the `k`-th byte that follows it. -/
theorem unit_of_frame {k : Nat} {b : Byte} (h : (unitBytes c)[k]? = some b) :
    ((frame c).drop (9 + 9 * k)).take 9 = byteUnit b.toNat := by
  have hskip : 9 + 9 * k = (cmdSubFrame c).length + 9 * k := by rw [cmdSubFrame_length]
  rw [frame_eq_units, hskip, List.drop_length_add_append]
  exact unit_of_flatMap_byteUnit h

theorem frame_length_eq_units (c : Command) : (frame c).length = 9 + 9 * (unitBytes c).length := by
  rw [frame_eq_units, List.length_append, cmdSubFrame_length, flatMap_byteUnit_length]

/-! ### What the frame depends on -/

theorem frame_congr (hk : c.kind = d.kind) (hsa : c.sa = d.sa) (hra : c.ra = d.ra) (hbc : c.bc = d.bc)
    (hpay : c.kind = .erw → c.payload = d.payload) : frame c = frame d := by
  have hcmd : cmdSubFrame c = cmdSubFrame d := by simp only [cmdSubFrame, commandWordBits, hk, hsa, hbc]
  have hunits : unitBytes c = unitBytes d := by
    cases hd : d.kind with
    | erw => simp only [unitBytes, hra, hk, hd, hpay (hk.trans hd)]
    | err => simp only [unitBytes, hra, hk, hd]
  rw [frame_eq_units, frame_eq_units, hcmd, hunits]

end Sys2Proof.Machine

namespace Sys2Proof.Spec

open Sys2Proof.Machine

variable {s : State} {i : Int} {p : HeldPhase} {c : Command} {f : List Bit}

theorem exec_frame_of_holds (hf : s.faultReg = none) (h : holds s i (.held p c)) :
    exec (.frame i) s = .next (okState s (.bits (frame c))) :=
  execFrame_held hf (holds_iff_slotAt.mp h)

theorem exec_cmdsf_of_holds (hf : s.faultReg = none) (h : holds s i (.held p c)) :
    exec (.cmdsf i) s = .next (okState s (.bits (cmdSubFrame c))) :=
  execCmdsf_held hf (holds_iff_slotAt.mp h)

/-- The bits that FRAME answered are the held command's frame. -/
theorem frame_of_exec_frame (hf : s.faultReg = none) (h : holds s i (.held p c))
    (hexec : exec (.frame i) s = .next (okState s (.bits f))) : frame c = f := by
  have hsame := (exec_frame_of_holds hf h).symm.trans hexec
  simpa [okState] using hsame

/-- Settles O25: the frame's length gives the variant, and its sub-frames, cut apart at bits 9 and 18, give the fields. -/
theorem frameIdentifiesItsCommand : Obligations.FrameIdentifiesItsCommand := by
  intro i j p q c d s f hf hc hd hcwf hdwf hcf hdf
  have hframe : frame c = frame d := (frame_of_exec_frame hf hc hcf).trans (frame_of_exec_frame hf hd hdf).symm
  obtain ⟨hcmd, haddr, hdata⟩ := subFrames_of_frame_eq hframe
  obtain ⟨hsa, hbc⟩ := fields_of_cmdSubFrame_eq hcwf hdwf hcmd
  have hkind := kind_of_frame_length_eq hcwf hdwf (congrArg List.length hframe)
  refine ⟨hkind, hsa, ra_of_addrSubFrame_eq haddr, hbc, fun hk => ?payload⟩
  case payload =>
    rw [dataSubFrame_erw hk, dataSubFrame_erw (hkind ▸ hk)] at hdata
    exact flatMap_byteUnit_inj hdata

/-- Settles O18: the parity bit covers the command code too, whose set bits are none for a write and one for a read. -/
theorem cmdsfParityDependsOnTheVariant : Obligations.CmdsfParityDependsOnTheVariant := by
  intro i p c s hf hc
  refine ⟨cmdSubFrame c, exec_cmdsf_of_holds hf hc, ?_⟩
  have hodd := sumBits_cmdSubFrame c
  rw [sumBits_commandBits] at hodd
  rw [ones_eq_sumBits]
  cases hk : c.kind with
  | erw =>
    rw [hk] at hodd
    exact hodd
  | err =>
    rw [hk] at hodd
    dsimp only at hodd ⊢
    omega

/-- Settles O19: the eight field bits are the same, and the parity of the command word changes with the variant. -/
theorem cmdsfVariantsDifferOnlyInTheParityBit : Obligations.CmdsfVariantsDifferOnlyInTheParityBit := by
  intro i j p q c d s hf hc hd hck hdk hsa hbc
  refine ⟨toBits c.sa.toNat 4 ++ toBits (c.bc.toNat - 1) 4, oddParity (commandWordBits c), by simp, ?write, ?read⟩
  case write =>
    rw [exec_cmdsf_of_holds hf hc, cmdSubFrame, byteCountFieldWidth_eq]
  case read =>
    rw [exec_cmdsf_of_holds hf hd, cmdSubFrame, byteCountFieldWidth_eq, hsa, hbc,
      oddParity_commandWordBits_of_kinds hck hdk hsa hbc]

/-- Settles O23: after the command sub-frame the frame is a sequence of whole byte units, and each of these is odd. -/
theorem frameUnitsHaveOddParity : Obligations.FrameUnitsHaveOddParity := by
  intro i p c s hf hc
  refine ⟨frame c, exec_frame_of_holds hf hc, fun k hk => ?_⟩
  have hlt : k < (unitBytes c).length := by
    rw [frame_length_eq_units] at hk
    omega
  rw [unit_of_frame (List.getElem?_eq_getElem hlt), ones_eq_sumBits]
  exact ⟨byteUnit_length _, byteUnit_odd _⟩

/-- Settles O24: the sub-frames are made of the listed fields alone. -/
theorem frameDependsOnNoOtherField : Obligations.FrameDependsOnNoOtherField := by
  intro i j p q c d s t hsf htf hc hd hk hsa hra hbc hpay
  refine ⟨frame c, exec_frame_of_holds hsf hc, ?_⟩
  rw [frame_congr hk hsa hra hbc hpay]
  exact exec_frame_of_holds htf hd

end Sys2Proof.Spec

/-! PROOFS. The words of the port and their instructions, in both directions, and from these the statements about the decoder and
about what a step does with a word (30_encoding.md). -/

namespace Sys2Proof.Machine

open Sys2Proof.Laws.Encoding (unpack_packCommandWord byteCountOfField_fieldOfByteCount fieldOfByteCount_byteCountOfField
  byteCountOfField_toNat)

variable {s : State} {instr : Instr} {op : BitVec 4} {ops : List OperandValue} {cw : BitVec 12} {more : List PortInput}

/-! ### Requests (R100 to R102) -/

/-- A request's word is the encoding of what it decodes to, but for code 0x0, which no operands change (R105). -/
theorem encode_of_decodeRequest (h : decodeRequest op ops = .ok instr) :
    instr.isRequest = true ∧ (encode instr = .request op ops ∨ instr = .reservedOp0 ∧ op = 0#4) := by
  have named : ∀ (code : BitVec 4), code.toNat = op.toNat → PortWord.request code ops = .request op ops :=
    fun code hcode => by rw [BitVec.eq_of_toNat_eq hcode]
  unfold decodeRequest at h
  split at h
  case h_1 h0 => cases h; exact ⟨rfl, .inr ⟨rfl, BitVec.eq_of_toNat_eq h0⟩⟩
  case h_16 =>
    have hlast : op.toNat = 15 := by
      have hlt := op.isLt
      simp only [imp_false] at *
      omega
    split at h <;> cases h
    exact ⟨rfl, .inl (named 15#4 hlast.symm)⟩
  all_goals
    split at h <;> cases h
    exact ⟨rfl, .inl (named _ (Eq.symm ‹_›))⟩

/-- A request that decodes to no instruction does not carry the operand record of its operation (R100, R102). -/
theorem decodeRequest_error {e : DecodeError} (h : decodeRequest op ops = .error e) : e = .operandShape op := by
  unfold decodeRequest at h
  split at h
  case h_1 => cases h
  all_goals
    split at h <;> cases h
    rfl

/-! ### Command words (R110, R118) -/

/-- Packing the three nibbles of a word gives it back. -/
theorem packCommandWord_unpack (cw : BitVec 12) :
    packCommandWord (cw.extractLsb' 8 4) (cw.extractLsb' 4 4) (cw.extractLsb' 0 4) = cw := by
  apply BitVec.eq_of_getLsbD_eq
  intro k hk
  simp only [packCommandWord, BitVec.getLsbD_extractLsb', BitVec.getLsbD_append]
  interval_cases k <;> simp

theorem packCommandWord_toNat (sa code bcm1 : BitVec 4) :
    (packCommandWord sa code bcm1).toNat = sa.toNat * 256 + code.toNat * 16 + bcm1.toNat := by
  rw [packCommandWord, BitVec.toNat_append, BitVec.toNat_append, ← Nat.shiftLeft_add_eq_or_of_lt bcm1.isLt,
    ← Nat.shiftLeft_add_eq_or_of_lt code.isLt]
  omega

theorem decodeCommandWord_pack (sa code bcm1 : BitVec 4) :
    decodeCommandWord (packCommandWord sa code bcm1) =
      if code = Config.codeErw then .ok (.extendedRegisterWrite sa (byteCountOfField bcm1))
      else if code = Config.codeErr then .ok (.extendedRegisterRead sa (byteCountOfField bcm1))
      else .error (.notExtendedRegister code) := by
  obtain ⟨hsa, hcode, hbc⟩ := unpack_packCommandWord sa code bcm1
  rw [decodeCommandWord, hsa, hcode, hbc]

theorem byteCountOk_byteCountOfField (bcm1 : BitVec 4) : byteCountOk (byteCountOfField bcm1) = true := by
  have hlt := bcm1.isLt
  simp only [byteCountOk, byteCountOfField_toNat, Bool.and_eq_true, decide_eq_true_eq]
  omega

/-- A command word that decodes is the encoding of a well-formed command word, and that is no request. -/
theorem encode_of_decodeCommandWord (h : decodeCommandWord cw = .ok instr) :
    instr.isRequest = false ∧ instr.wellFormed = true ∧ encode instr = .commandWord cw := by
  rw [← packCommandWord_unpack cw, decodeCommandWord_pack] at h
  have repack : ∀ code, cw.extractLsb' 4 4 = code → PortWord.commandWord (packCommandWord (cw.extractLsb' 8 4) code
      (fieldOfByteCount (byteCountOfField (cw.extractLsb' 0 4)))) = .commandWord cw := by
    rintro code rfl
    rw [fieldOfByteCount_byteCountOfField, packCommandWord_unpack]
  split at h
  · next hcode => cases h; exact ⟨rfl, byteCountOk_byteCountOfField _, repack _ hcode⟩
  · split at h
    · next hcode => cases h; exact ⟨rfl, byteCountOk_byteCountOfField _, repack _ hcode⟩
    · cases h

/-- Every instruction that has a word is what its word decodes to: the two families of the table. -/
theorem decode_encode (instr : Instr) : Laws.Encoding.Statement instr := by
  cases instr
  case extendedRegisterWrite sa bc => exact Laws.Encoding.extendedRegisterWrite sa bc
  case extendedRegisterRead sa bc => exact Laws.Encoding.extendedRegisterRead sa bc
  all_goals exact fun _ => rfl

/-! ### What a step does with a word -/

theorem step_of_decode_error {w : PortWord} {e : DecodeError} (hp : s.pending = .word w :: more)
    (hd : decode w = .error e) : step s = rejectWord w { s with pending := more } := by
  simp only [step, hp, hd]

/-- No operation takes a command word, whether its code is one of the variants' or not (R118). -/
theorem step_commandWord (hp : s.pending = .word (.commandWord cw) :: more) :
    step s = .refused .commandWordNotARequest := by
  cases hd : decode (.commandWord cw) with
  | error e => exact step_of_decode_error hp hd
  | ok j =>
    obtain ⟨hreq, -⟩ := encode_of_decodeCommandWord hd
    rw [step_of_decode hp hd]
    cases j
    case extendedRegisterWrite => rfl
    case extendedRegisterRead => rfl
    all_goals cases hreq

/-- A request that carries another operand record is refused, with BadSlot or BadOperand (R103). -/
theorem step_malformedRequest {e : DecodeError} (hf : s.faultReg = none) (hp : s.pending = .word (.request op ops) :: more)
    (hd : decode (.request op ops) = .error e) : ∃ r, (r = .badOperand ∨ r = .badSlot) ∧
      step s = .next (({ s with pending := more } : State).refusedWith r) := by
  have reason : ∀ u : State, malformedReason op ops u = .badOperand ∨ malformedReason op ops u = .badSlot := by
    intro u
    unfold malformedReason
    split
    · split
      · exact .inr rfl
      · exact .inl rfl
    · exact .inl rfl
  refine ⟨_, reason { s with pending := more }, ?_⟩
  rw [step_of_decode_error hp hd, rejectWord, whenReady_ready (by exact hf), refuse]

/-- A table word that decodes is presented as the next input. -/
theorem withFetchWord_of_decodeTableWord {nbits w : Nat} (h : decodeTableWord nbits w = some instr) :
    ∃ p, s.withFetchWord nbits w = { s with pending := .word p :: s.pending } ∧ decode p = .ok instr := by
  unfold decodeTableWord at h
  split at h
  · cases h
  · next p hp =>
    split at h
    · next j hd => cases h; exact ⟨p, by rw [State.withFetchWord, hp], hd⟩
    · cases h

end Sys2Proof.Machine

namespace Sys2Proof.Spec

open Sys2Proof.Machine

/-- Settles O42: one direction is the two families of the table, and the other reads the encoding back from the operands or the
nibbles that the decoder found. -/
theorem decodeAndEncodeAgree : Obligations.DecodeAndEncodeAgree := by
  refine ⟨decode_encode, fun p i h => ?_⟩
  cases p with
  | request op ops =>
    obtain ⟨hreq, henc | ⟨rfl, rfl⟩⟩ := encode_of_decodeRequest h
    · exact ⟨by rw [Instr.encodable, hreq, Bool.true_or], .inl henc.symm⟩
    · exact ⟨rfl, .inr ⟨rfl, ops, rfl⟩⟩
  | commandWord cw =>
    obtain ⟨-, hwf, henc⟩ := encode_of_decodeCommandWord h
    exact ⟨by rw [Instr.encodable, hwf, Bool.or_true], .inl henc.symm⟩

/-- Settles O44: the word is the packing of its three nibbles, which the decoder reads back. -/
theorem commandWordsDecodeByTheirFields : Obligations.CommandWordsDecodeByTheirFields := by
  intro sa code bc cw hlow hhigh hcw
  have hok : byteCountOk bc = true := by
    rw [byteCountOk, decide_eq_true hlow, decide_eq_true hhigh, Bool.true_and]
  have hfield := Laws.Encoding.byteCountOfField_fieldOfByteCount bc hok
  have hcount := Laws.Encoding.byteCountOfField_toNat (fieldOfByteCount bc)
  rw [hfield] at hcount
  have hpack : cw = packCommandWord sa code (fieldOfByteCount bc) := by
    apply BitVec.eq_of_toNat_eq
    rw [packCommandWord_toNat]
    omega
  rw [hpack, decode, decodeCommandWord_pack, hfield]

/-- Settles O43: each code selects its operation, and the two command words are cut into their nibbles. -/
theorem decodesTheListedWords : Obligations.DecodesTheListedWords := by
  refine ⟨fun i sa ra bc bus v w T xs a => ?codes, rfl, rfl⟩
  exact ⟨rfl, rfl, rfl, rfl, rfl, rfl, rfl, rfl, rfl, rfl, rfl, rfl, rfl, rfl, rfl, rfl⟩

/-- Settles O47: both rows of the table stop by name, and a step with a command word ends in one of them or is rejected alike. -/
theorem commandWordsAreNotTaken : Obligations.CommandWordsAreNotTaken :=
  ⟨fun _ _ _ => ⟨rfl, rfl⟩, fun _ _ _ hp => step_commandWord hp⟩

/-- Settles O48: the decoder's only error for a request is its operand record, and the step refuses such a request. -/
theorem malformedRequestsAreRefused : Obligations.MalformedRequestsAreRefused := by
  intro op ops e s more hf hp hd
  obtain ⟨r, rfl | rfl, hstep⟩ := step_malformedRequest hf hp hd
  · exact ⟨decodeRequest_error hd, .inl hstep⟩
  · exact ⟨decodeRequest_error hd, .inr hstep⟩

/-- Settles O49: the step takes the word at the head, which `withFetchWord` puts there. -/
theorem stepRunsTheDecodedInstruction : Obligations.StepRunsTheDecodedInstruction := by
  refine ⟨fun s p more i hp hd => step_of_decode hp hd, fun s nbits w i h => ?_⟩
  obtain ⟨p, hs, hd⟩ := withFetchWord_of_decodeTableWord (s := s) h
  rw [hs, step_of_decode rfl hd]

end Sys2Proof.Spec

/-! PROOFS. What a request does to the invariant of the block, and from it the statements about the machine as a whole
(10_state.md, 70_reset_and_hazards.md). -/

namespace Sys2Proof.Machine

variable {s t : State} {i : Int} {p : HeldPhase} {c : Command} {bus : Int} {T : Duration} {x : Slot}

/-! ### Held commands that stay well-formed (R35 to R37) -/

/-- A failed EXEC leaves a well-formed command well-formed, whatever the phase it found. -/
theorem wf_failed (h : c.wf p) : c.wf .failed := by
  obtain ⟨hlow, hhigh, hpayload⟩ := h
  refine ⟨hlow, hhigh, ?_⟩
  cases hk : c.kind <;> rw [hk] at hpayload
  case erw => exact hpayload
  case err =>
    cases p
    · exact .inl hpayload
    · exact .inr hpayload
    · exact hpayload

theorem wf_executed_write (hk : c.kind = .erw) (h : c.wf p) : c.wf .executed := by
  have hlen := payload_length_of_wf hk h
  obtain ⟨hlow, hhigh, -⟩ := h
  refine ⟨hlow, hhigh, ?_⟩
  rw [hk]
  exact hlen

theorem wf_executed_read {ds : List Byte} (hk : c.kind = .err) (h : c.wf p) (hds : ds.length = c.bc.toNat) :
    ({ c with payload := ds } : Command).wf .executed := by
  obtain ⟨hlow, hhigh, -⟩ := h
  refine ⟨hlow, hhigh, ?_⟩
  simp only [hk]
  exact hds

/-- The payload of a construction that validates the byte count `bc`: a write's has `bc` bytes, a read's none (R183). -/
def newPayload (ds : List Byte) (bc : Int) : Kind → Prop
  | .erw => (ds.length : Int) = bc
  | .err => ds = []

/-- A validated command is well-formed when its payload is the one its construction gives it (R184, R185). -/
theorem wf_newCommand {k : Kind} {sa ra bc : Int} {ds : List Byte} {a : Option Text} (h : validate k sa ra bc = none)
    (hds : newPayload ds bc k) : (newCommand k sa ra bc ds a).wf .constructed := by
  obtain ⟨-, -, hcount⟩ := newCommand_fields_of_validate ds a h
  obtain ⟨-, -, -, hbc⟩ | ⟨-, he⟩ | ⟨-, -, he⟩ | ⟨-, -, -, he⟩ := validate_cases k sa ra bc
  case inl =>
    refine ⟨by omega, by omega, ?_⟩
    cases k with
    | erw => exact Int.ofNat_inj.mp (hds.trans hcount.symm)
    | err => exact hds
  all_goals simp [h] at he

/-! ### The invariant -/

/-- A request that leaves the slots, the history and the fault record keeps the invariant. -/
theorem inv_of_unchanged (h : s.Inv) (hslots : t.slots = s.slots) (hhist : t.hist = s.hist)
    (hfault : t.faultReg = s.faultReg) : t.Inv := by
  obtain ⟨hsome, hwf, hlog, hrec⟩ := h
  refine ⟨hslots ▸ hsome, hslots ▸ hwf, hhist ▸ hlog, fun i e g hg => ?_⟩
  rw [slotAt_of_slots_eq hslots, hhist]
  exact hrec i e g (hfault ▸ hg)

/-- A request of an unfaulted block that writes a well-formed slot and leaves a transport log keeps the invariant. -/
theorem inv_of_slotWritten {k : Nat} (h : s.Inv) (hslots : t.slots = s.slots.set k x) (hx : x.wf)
    (hlog : TransportLog t.hist) (hfault : t.faultReg = none) : t.Inv where
  someSlot := by
    rw [hslots, List.length_set]
    exact h.someSlot
  slotsWf := by
    intro y hy
    rw [hslots] at hy
    obtain hy | rfl := List.mem_or_eq_of_mem_set hy
    · exact h.slotsWf y hy
    · exact hx
  log := hlog
  fault := by
    intro i e g hg
    simp [hfault] at hg

theorem inv_resetWith {k : Nat} (hk : 1 ≤ k) : (State.resetWith k).Inv where
  someSlot := by simpa using hk
  slotsWf := by
    intro x hx
    obtain rfl := List.eq_of_mem_replicate hx
    trivial
  log := .start
  fault := nofun

/-- The reset input leaves the reset state but for what the host and the transport still hold. -/
theorem applyReset_eq_resetWith (s : State) : applyReset s = { State.resetWith s.slots.length with
    pending := s.pending, burstAnswers := s.burstAnswers, captureAnswers := s.captureAnswers } := rfl

theorem inv_applyReset (h : s.Inv) : (applyReset s).Inv :=
  inv_of_unchanged (inv_resetWith h.someSlot) rfl rfl rfl

theorem wf_of_held (h : s.Inv) (hs : s.slotAt i = some (.held p c)) : c.wf p := h.slotsWf _ (slotAt_mem hs)

/-! ### Every request keeps the invariant -/

theorem constructIn_inv {k : Kind} {sa ra bc : Int} {ds : List Byte} {a : Option Text} (h : s.Inv)
    (hf : s.faultReg = none) (hds : newPayload ds bc k)
    (hrun : constructIn i k sa ra bc ds a s = .next t) : t.Inv := by
  obtain ⟨_, -, rfl⟩ | ⟨hv, rfl⟩ := constructIn_next.mp hrun
  · exact inv_of_unchanged h rfl rfl rfl
  · exact inv_of_slotWritten h rfl (wf_newCommand hv hds) h.log hf

theorem executeWrite_inv (h : s.Inv) (hf : s.faultReg = none) (hk : c.kind = .erw) (hwf : c.wf p)
    (hrun : executeWrite i c bus T s = .next t) : t.Inv := by
  have hlen := frame_length_of_wf_erw hk hwf
  obtain ⟨hlow, hhigh⟩ := bc_of_wf hwf
  obtain ⟨_, _, -, rfl⟩ | ⟨_, -, rfl⟩ := executeWrite_next.mp hrun
  · exact inv_of_slotWritten h rfl (wf_failed hwf) (.write h.log _ hlow hhigh hlen) hf
  · exact inv_of_slotWritten h rfl (wf_executed_write hk hwf) (.write h.log _ hlow hhigh hlen) hf

/-- A read whose burst answered OK adds its two events to the log, and its fault, if any, records what the capture brought. -/
theorem executeRead_inv (h : s.Inv) (hf : s.faultReg = none) (hs : s.slotAt i = some (.held p c)) (hk : c.kind = .err)
    (hrun : executeRead i c bus T s = .next t) : t.Inv := by
  have hwf := wf_of_held h hs
  have hlen := frame_length_err hk
  obtain ⟨hlow, hhigh⟩ := bc_of_wf hwf
  obtain ⟨_, _, -, rfl⟩ | ⟨_, -, hcap⟩ := executeRead_next.mp hrun
  · exact inv_of_slotWritten h rfl (wf_failed hwf) (.readNotBurst h.log hlen) hf
  have hlog : ∀ q, TransportLog (s.hist ++ [.burst bus Config.nameErr (frame c) T .ok]
      ++ [.capture bus Config.nameErr c.bc.toNat T q]) := fun q => by
    rw [List.append_assoc]
    exact .read h.log hlen hlow hhigh
  obtain ⟨_, _, -, rfl⟩ | ⟨us, _, -, hne, rfl⟩ | ⟨us, _, -, heq, rfl⟩ := captureInto_next.mp hcap
  case inl => exact inv_of_slotWritten h rfl (wf_failed hwf) (hlog _) hf
  case inr.inl =>
    refine ⟨h.someSlot, h.slotsWf, hlog _, fun j e g hg => ?_⟩
    cases hg
    exact ⟨hne, ⟨p, c, hs, hk, rfl⟩, _, bus, T, us, rfl, rfl⟩
  case inr.inr =>
    have hds : (us.map capturedByte).length = c.bc.toNat := by rw [List.length_map, heq]
    exact inv_of_slotWritten h rfl (wf_executed_read hk hwf hds) (hlog _) hf

theorem exec_inv {instr : Instr} (h : s.Inv) (hexec : exec instr s = .next t) : t.Inv := by
  obtain ⟨hf, ⟨_, rfl⟩ | ⟨_, rfl⟩ | ⟨_, _, _, payload, _, ds, -, hds, -, hc⟩ | ⟨_, _, _, _, _, -, -, hc⟩ |
    ⟨m, _, _, -, -, rfl⟩ | ⟨_, _, _, _, _, -, hs, ⟨hk, hw⟩ | ⟨hk, hr⟩⟩⟩ := exec_next_cases hexec
  case inl => exact inv_of_unchanged h rfl rfl rfl
  case inr.inl => exact inv_of_unchanged h rfl rfl rfl
  case inr.inr.inl =>
    have hlen : newPayload ds payload.length .erw := by rw [newPayload, bytesOfInts_eq_some.mp hds, List.length_map]
    exact constructIn_inv h hf hlen hc
  case inr.inr.inr.inl => exact constructIn_inv (k := .err) h hf rfl hc
  case inr.inr.inr.inr.inl => exact inv_of_slotWritten (x := .empty) h rfl trivial h.log hf
  case inr.inr.inr.inr.inr.inl => exact executeWrite_inv h hf hk (wf_of_held h hs) hw
  case inr.inr.inr.inr.inr.inr => exact executeRead_inv h hf hs hk hr

/-- No request adds or removes a slot (R31). -/
theorem exec_slots_length {instr : Instr} (h : exec instr s = .next t) : t.slots.length = s.slots.length := by
  obtain hs | ⟨_, _, -, hs⟩ | ⟨_, _, _, -, -, hs⟩ | ⟨_, _, _, _, _, _, _, -, -, hs, -⟩ := exec_slots_cases h <;>
    simp [hs]

end Sys2Proof.Machine

namespace Sys2Proof.Spec

open Sys2Proof.Machine

/-- Settles O54: a step idles, resets, runs one request on the state with the word taken, or refuses the word. -/
theorem everyStepKeepsTheInvariant : Obligations.EveryStepKeepsTheInvariant := by
  intro s t h hstep
  have taken : ∀ more, ({ s with pending := more } : State).Inv := fun _ => inv_of_unchanged h rfl rfl rfl
  obtain ⟨-, rfl⟩ | ⟨more, -, rfl⟩ | ⟨_, more, _, -, -, hexec⟩ | ⟨_, more, _, -, -, rfl⟩ := step_next_cases hstep
  case inl => exact ⟨h, rfl⟩
  case inr.inl => exact ⟨inv_applyReset (taken more), by simp⟩
  case inr.inr.inl => exact ⟨exec_inv (taken more) hexec, (exec_slots_length hexec :)⟩
  case inr.inr.inr => exact ⟨inv_of_unchanged h rfl rfl rfl, rfl⟩

/-- Settles O55: every slot is EMPTY, the history is empty and no fault is recorded. -/
theorem resetMeetsTheInvariant : Obligations.ResetMeetsTheInvariant :=
  ⟨fun _ => inv_resetWith, inv_resetWith (by decide)⟩

/-- Settles O51: the step takes the reset input, and `applyReset` leaves what is not the block's own. -/
theorem resetInputRestoresTheResetValues : Obligations.ResetInputRestoresTheResetValues := by
  intro s more hp
  simp only [step, hp]
  rw [applyReset_eq_resetWith]

/-- Settles O52: the properties are those of R38's table, and the two names are kept apart. -/
theorem variantsHaveTheListedProperties : Obligations.VariantsHaveTheListedProperties := by
  refine ⟨rfl, rfl, nameErw_ne_nameErr, rfl, rfl, rfl, rfl, fun k => ?_⟩
  cases k <;> exact ⟨rfl, rfl, rfl, rfl, rfl⟩

end Sys2Proof.Spec

/-! PROOFS. The parity bit as an exclusive or, and the byte that DECU takes from a unit; from these the derived statements about the
odd-parity generator and the capture decoder (41_parity.md, 44_execute.md). -/

namespace Sys2Proof.Machine

variable {s : State} {xs : List Int} {b : List Bit}

/-! ### The parity bit as an exclusive or (R162, R166) -/

theorem foldl_xor_eq_oddParity (b : List Bit) (acc : Bit) : b.foldl Bool.xor acc = Bool.xor acc !oddParity b := by
  induction b generalizing acc with
  | nil => simp
  | cons x b ih => rw [List.foldl_cons, ih, oddParity_cons, ← Bool.xor_not, Bool.xor_assoc]

theorem oddParity_eq_foldl_xor (b : List Bit) : oddParity b = b.foldl Bool.xor true := by
  rw [foldl_xor_eq_oddParity, Bool.true_xor, Bool.not_not]

theorem oddParityBytes_cons (d : Byte) (ds : List Byte) :
    oddParityBytes (d :: ds) = Bool.xor (oddParity (toBits d.toNat 8)) (oddParityBytes ds) := by
  rw [oddParityBytes, List.map_cons, oddParity_cons, oddParityBytes]

/-- Each further byte inverts the difference between the two forms, because joining two bit sequences inverts the parity (R166). -/
theorem oddParityBytes_eq_xor_length (ds : List Byte) :
    oddParityBytes ds
      = Bool.xor (oddParity (ds.flatMap fun d => toBits d.toNat 8)) (decide (ds.length % 2 = 1)) := by
  induction ds with
  | nil => rfl
  | cons d ds ih =>
    have hlen : decide ((d :: ds).length % 2 = 1) = !decide (ds.length % 2 = 1) := by
      rw [List.length_cons, ← decide_not]
      exact decide_eq_decide.mpr (by omega)
    rw [oddParityBytes_cons, ih, hlen, List.flatMap_cons, oddParity_append, Bool.not_xor_not, Bool.xor_assoc]

/-- A byte's bits, most significant first, are its packed bits (R13). -/
theorem toBits_byte (d : Byte) : toBits d.toNat 8 = (List.range 8).map fun k => d.getLsbD (7 - k) := by
  refine (eq_toBits (by simp) fun k hk => ?_).symm
  simp [hk, BitVec.testBit_toNat]

/-! ### The byte that DECU takes (R259) -/

theorem execDecu_answers (hf : s.faultReg = none) (h : bitsOfInts xs = some b) (hlen : b.length = Config.unitWidth) :
    execDecu xs s = .next (s.answered (.response (.ok (.byte (dataPortion b))))) := by
  simp only [execDecu, whenReady_ready hf, h, hlen, ne_eq, not_true_eq_false, if_false, respond]

/-- The value of a bit sequence, computed from the integers that an operand list carries for the bits. -/
theorem bitsValue_eq_foldl_ints (b : List Bit) :
    (bitsValue b : Int) = (b.map fun x => if x then (1 : Int) else 0).foldl (fun acc x => 2 * acc + x) 0 := by
  rw [List.foldl_map, bitsValue]
  refine (List.foldl_hom Nat.cast fun acc x => ?_).symm
  cases x <;> simp

theorem dataPortion_toNat (b : List Bit) : (dataPortion b).toNat = bitsValue (b.take 8) := by
  have hlt := bitsValue_lt (b.take 8)
  have hpow : 2 ^ (b.take 8).length ≤ 2 ^ 8 := Nat.pow_le_pow_right (by decide) (List.length_take_le 8 b)
  rw [dataPortion, BitVec.toNat_ofNat, Nat.mod_eq_of_lt (hlt.trans_le hpow)]

end Sys2Proof.Machine

namespace Sys2Proof.Spec

open Sys2Proof.Machine

theorem exec_oddpar_asInts {s : State} (hf : s.faultReg = none) (b : List Bit) :
    exec (.oddpar (asInts b)) s = .next (okState s (.bit (oddParity b))) :=
  execOddpar_answers hf (bitsOfInts_asInts b)

theorem unitOk_eq_false_of_bad {u : List Int} (h : u.length ≠ 9 ∨ ¬ allBits u) : unitOk u = false := by
  cases hb : bitsOfInts u with
  | none => exact unitOk_eq_false.mpr (.inl hb)
  | some b =>
    have hlen := bitsOfInts_length hb
    have hbits : allBits u := not_not.mp fun hbad => by simp [not_allBits_iff_bitsOfInts.mp hbad] at hb
    obtain hne | hbad := h
    · exact unitOk_eq_false.mpr (.inr ⟨b, hb, hlen ▸ hne⟩)
    · exact absurd hbits hbad

/-- Settles O6: the parity bit starts at 1 and each set bit inverts it. -/
theorem oddparIsTheXorOfTheBits : Obligations.OddparIsTheXorOfTheBits := by
  intro b s hf
  rw [← oddParity_eq_foldl_xor]
  exact exec_oddpar_asInts hf b

/-- Settles O8: the two answers are compared byte by byte. -/
theorem oddparbAgainstTheConcatenatedBits : Obligations.OddparbAgainstTheConcatenatedBits := by
  intro ds s hf
  simp only [← toBits_byte]
  exact ⟨_, _, execOddparb_answers hf (bytesOfInts_map ds), exec_oddpar_asInts hf _, oddParityBytes_eq_xor_length ds⟩

/-- Settles O9: nine bits are read as a bit sequence, whose first eight are the byte's, and any other list is no unit. -/
theorem decuTakesTheDataPortion : Obligations.DecuTakesTheDataPortion := by
  refine fun u s hf => ⟨?unit, fun hbad => execDecu_badOperand hf (unitOk_eq_false_of_bad hbad)⟩
  rintro u0 u1 u2 u3 u4 u5 u6 u7 u8 rfl hbits
  obtain ⟨b, hread, hlen, -⟩ := exists_bits_of_allBits hbits
  refine ⟨dataPortion b, execDecu_answers hf hread hlen, ?_⟩
  rw [dataPortion_toNat, bitsValue_eq_foldl_ints, List.map_take, ← bitsOfInts_eq_some.mp hread]
  simp only [List.take_succ_cons, List.take_zero, List.foldl_cons, List.foldl_nil]
  ring

/-- Settles O10: DECU reads the first eight bits, which TOBITS packed. -/
theorem decuUndoesTobits : Obligations.DecuUndoesTobits := by
  intro d p s hf
  have hdecu := execDecu_answers hf (bitsOfInts_asInts (toBits d.toNat 8 ++ [p])) (by simp [Config.unitWidth])
  have hbyte : dataPortion (toBits d.toNat 8 ++ [p]) = d := by rw [dataPortion_append, BitVec.ofNat_toNat, BitVec.setWidth_eq]
  rw [hbyte] at hdecu
  exact ⟨_, execTobits_packs hf (by omega) (by decide) (by decide), hdecu⟩

end Sys2Proof.Spec

/-! PROOFS. What an EXEC depends on and what it can leave behind: its fault, its phase, its routing and the bytes it captures
(44_execute.md). -/

namespace Sys2Proof.Machine

variable {s t : State} {i : Int} {p : HeldPhase} {c : Command} {bus : Int} {T : Duration} {f : FaultRecord}

/-! ### The transport that does not answer (I11) -/

theorem execExec_noBurstAnswer (hf : s.faultReg = none) (hs : s.slotAt i = some (.held p c)) (hb : s.burstAnswers = []) :
    execExec i bus T s = .fault .transportSilent := by
  cases hk : c.kind with
  | erw => simp only [execExec_erw hf hs hk, executeWrite, callBurst, hb]
  | err => simp only [execExec_err hf hs hk, executeRead, callBurst, hb]

theorem execExec_noCaptureAnswer {rest : List BurstAnswer} (hf : s.faultReg = none)
    (hs : s.slotAt i = some (.held p c)) (hk : c.kind = .err) (hb : s.burstAnswers = .ok :: rest)
    (hq : s.captureAnswers = []) : execExec i bus T s = .fault .transportSilent := by
  simp only [execExec_err hf hs hk, executeRead, callBurst, hb, captureInto, callCapture, hq]

/-! ### A recorded fault (R257, R300) -/

theorem exec_faulted {instr : Instr} (hf : s.faultReg = some f) (hreq : instr.isRequest = true) :
    exec instr s = .fault .quiescent := by
  cases instr
  case extendedRegisterWrite => cases hreq
  case extendedRegisterRead => cases hreq
  all_goals exact whenReady_faulted hf

theorem step_request_faulted {op : BitVec 4} {ops : List OperandValue} {more : List PortInput}
    (hf : s.faultReg = some f) (hp : s.pending = .word (.request op ops) :: more) : step s = .fault .quiescent := by
  have hf' : ({ s with pending := more } : State).faultReg = some f := hf
  cases hd : decode (.request op ops) with
  | error e => rw [step_of_decode_error hp hd, rejectWord, whenReady_faulted hf']
  | ok instr =>
    obtain ⟨hreq, -⟩ := encode_of_decodeRequest hd
    rw [step_of_decode hp hd, exec_faulted hf' hreq]

theorem step_reset {more : List PortInput} (hp : s.pending = .reset :: more) :
    step s = .next (applyReset { s with pending := more }) := by
  simp only [step, hp]

theorem constructIn_faultReg {k : Kind} {sa ra bc : Int} {ds : List Byte} {a : Option Text}
    (h : constructIn i k sa ra bc ds a s = .next t) : t.faultReg = s.faultReg := by
  obtain ⟨_, -, rfl⟩ | ⟨-, rfl⟩ := constructIn_next.mp h <;> rfl

theorem executeWrite_faultReg (h : executeWrite i c bus T s = .next t) : t.faultReg = s.faultReg := by
  obtain ⟨_, _, -, rfl⟩ | ⟨_, -, rfl⟩ := executeWrite_next.mp h <;> rfl

/-- A read that ends with a recorded fault got another number of units than its byte count, and wrote no slot. -/
theorem executeRead_faulted (hf : s.faultReg = none) (h : executeRead i c bus T s = .next t)
    (ht : t.faultReg = some f) :
    t.slots = s.slots ∧ t.lastOutcome = some (.fault f) ∧ s.burstAnswers.head? = some .ok ∧
      ∃ us rest, s.captureAnswers = .units us :: rest ∧ us.length ≠ c.bc.toNat ∧
        f = .captureCountMismatch i c.bc.toNat us.length := by
  obtain ⟨_, _, -, rfl⟩ | ⟨_, hb, hcap⟩ := executeRead_next.mp h
  · simp [hf] at ht
  obtain ⟨_, _, -, rfl⟩ | ⟨us, rest, hq, hne, rfl⟩ | ⟨_, _, -, -, rfl⟩ := captureInto_next.mp hcap
  · simp [hf] at ht
  · cases ht
    exact ⟨rfl, rfl, by rw [hb, List.head?_cons], us, rest, hq, hne, rfl⟩
  · simp [hf] at ht

/-! ### What the slot held before (R262) -/

/-- An EXEC of `c` writes its slot, so it ends the same whatever else the slot held. -/
theorem executeWrite_setSlot (h : executeWrite i c bus T s = .next t) (x : Slot) :
    executeWrite i c bus T (s.setSlot i x) = .next t := by
  obtain ⟨info, rest, hb, rfl⟩ | ⟨rest, hb, rfl⟩ := executeWrite_next.mp h
  · exact executeWrite_next.mpr (.inl ⟨info, rest, hb, by simp [State.setSlot]⟩)
  · exact executeWrite_next.mpr (.inr ⟨rest, hb, by simp [State.setSlot]⟩)

/-- A capture writes its slot, unless a fault leaves the slot as it was. -/
theorem captureInto_setSlot (hf : s.faultReg = none) (h : captureInto i c bus T s = .next t) (x : Slot) :
    captureInto i c bus T (s.setSlot i x) = .next (if t.faultReg = none then t else t.setSlot i x) := by
  obtain ⟨info, rest, hq, rfl⟩ | ⟨us, rest, hq, hne, rfl⟩ | ⟨us, rest, hq, heq, rfl⟩ := captureInto_next.mp h
  · rw [if_pos hf]
    exact captureInto_next.mpr (.inl ⟨info, rest, hq, by simp [State.setSlot]⟩)
  · rw [if_neg (by simp)]
    exact captureInto_next.mpr (.inr (.inl ⟨us, rest, hq, hne, rfl⟩))
  · rw [if_pos hf]
    exact captureInto_next.mpr (.inr (.inr ⟨us, rest, hq, heq, by simp [State.setSlot]⟩))

theorem executeRead_setSlot (hf : s.faultReg = none) (h : executeRead i c bus T s = .next t) (x : Slot) :
    executeRead i c bus T (s.setSlot i x) = .next (if t.faultReg = none then t else t.setSlot i x) := by
  obtain ⟨info, rest, hb, rfl⟩ | ⟨rest, hb, hcap⟩ := executeRead_next.mp h
  · rw [if_pos hf]
    exact executeRead_next.mpr (.inl ⟨info, rest, hb, by simp [State.setSlot]⟩)
  · exact executeRead_next.mpr (.inr ⟨rest, hb, captureInto_setSlot (by exact hf) hcap x⟩)

/-! ### Captured units that carry a frame's data bits (W7) -/

/-- The data bits of the `k`-th data unit of a write's frame are the bits of its `k`-th payload byte. -/
theorem frame_dataBit {k n : Nat} {b : Byte} (hk : c.kind = .erw) (hb : c.payload[k]? = some b) (hn : n < 8) :
    (frame c)[18 + 9 * k + n]? = some (b.toNat.testBit (7 - n)) := by
  have hunit : ((frame c).drop (9 + 9 * (k + 1))).take 9 = byteUnit b.toNat := unit_of_frame (by simp [unitBytes, hk, hb])
  have hbit : (byteUnit b.toNat)[n]? = some (b.toNat.testBit (7 - n)) := by
    rw [byteUnit, List.getElem?_append_left (by simpa using hn), toBits_getElem? _ _ _ hn]
  rw [← hunit, List.getElem?_take_of_lt (by omega), List.getElem?_drop] at hbit
  rwa [show 18 + 9 * k + n = 9 + 9 * (k + 1) + n by omega]

/-- A captured unit gives the byte whose bits its first eight bits are. -/
theorem capturedByte_eq_of_bits {u : CapturedUnit} {b : Byte}
    (h : ∀ n < 8, u.getLsbD (8 - n) = b.toNat.testBit (7 - n)) : capturedByte u = b := by
  rw [capturedByte_eq]
  refine BitVec.eq_of_getLsbD_eq fun k hk => ?_
  have hbit := h (7 - k) (by omega)
  rw [show 8 - (7 - k) = k + 1 by omega, show 7 - (7 - k) = k by omega, BitVec.testBit_toNat] at hbit
  rw [BitVec.getLsbD_ofNat, Nat.testBit_div_two, BitVec.testBit_toNat, hbit, decide_eq_true hk, Bool.true_and]

/-- Captured units that carry the data bits of a write's frame, one per payload byte, give the payload. -/
theorem map_capturedByte_of_frame {us : List CapturedUnit} (hk : c.kind = .erw) (hlen : us.length = c.payload.length)
    (h : ∀ k u, us[k]? = some u → ∀ n < 8, (frame c)[18 + 9 * k + n]? = some (u.getLsbD (8 - n))) :
    us.map capturedByte = c.payload := by
  refine List.ext_getElem (by rw [List.length_map, hlen]) fun k hu hb => ?_
  rw [List.length_map] at hu
  rw [List.getElem_map]
  refine capturedByte_eq_of_bits fun n hn => Option.some.inj ?_
  rw [← h k _ (List.getElem?_eq_getElem hu) n hn, frame_dataBit hk (List.getElem?_eq_getElem hb) hn]

end Sys2Proof.Machine

namespace Sys2Proof.Spec

open Sys2Proof.Machine

variable {s t : State} {i : Int} {c : Command} {bus : Int} {T : Duration}

/-! ### The routing of the transport calls (R252, R318) -/

/-- The event carries the bus and the timeout of its EXEC. -/
def RoutedBy (bus : Int) (T : Duration) (e : Event) : Prop :=
  (∃ name fr r, e = .burst bus name fr T r) ∨ ∃ name n q, e = .capture bus name n T q

/-- From `s` to `t` events routed by `bus` and `T` were appended, and `o` ends in `t` but for the history, which is `log` with the
same events in another routing. -/
def EndsUpToRouting (bus : Int) (T : Duration) (s t : State) (log : List Event)
    (o : Host.Outcome State Fault Refusal) : Prop :=
  ∃ evs evs', t.hist = s.hist ++ evs ∧ o = .next { t with hist := log ++ evs' } ∧
    evs'.map eventCore = evs.map eventCore ∧ ∀ e ∈ evs, RoutedBy bus T e

theorem routedBy_burst (name : Text) (fr : List Bit) (r : BurstAnswer) : RoutedBy bus T (.burst bus name fr T r) :=
  .inl ⟨name, fr, r, rfl⟩

theorem routedBy_capture (name : Text) (n : Nat) (q : CaptureAnswer) : RoutedBy bus T (.capture bus name n T q) :=
  .inr ⟨name, n, q, rfl⟩

theorem executeWrite_upToRouting (bus' : Int) (T' : Duration) (h : executeWrite i c bus T s = .next t) :
    EndsUpToRouting bus T s t s.hist (executeWrite i c bus' T' s) := by
  obtain ⟨info, rest, hb, rfl⟩ | ⟨rest, hb, rfl⟩ := executeWrite_next.mp h
  · exact ⟨_, _, rfl, executeWrite_next.mpr (.inl ⟨info, rest, hb, rfl⟩), rfl,
      List.forall_mem_singleton.mpr (routedBy_burst _ _ _)⟩
  · exact ⟨_, _, rfl, executeWrite_next.mpr (.inr ⟨rest, hb, rfl⟩), rfl,
      List.forall_mem_singleton.mpr (routedBy_burst _ _ _)⟩

theorem captureInto_upToRouting (bus' : Int) (T' : Duration) (log : List Event)
    (h : captureInto i c bus T s = .next t) :
    EndsUpToRouting bus T s t log (captureInto i c bus' T' { s with hist := log }) := by
  have routed : ∀ q, ∀ e ∈ [Event.capture bus Config.nameErr c.bc.toNat T q], RoutedBy bus T e :=
    fun q => List.forall_mem_singleton.mpr (routedBy_capture _ _ _)
  obtain ⟨info, rest, hq, rfl⟩ | ⟨us, rest, hq, hne, rfl⟩ | ⟨us, rest, hq, heq, rfl⟩ := captureInto_next.mp h
  · exact ⟨_, _, rfl, captureInto_next.mpr (.inl ⟨info, rest, hq, rfl⟩), rfl, routed _⟩
  · exact ⟨_, _, rfl, captureInto_next.mpr (.inr (.inl ⟨us, rest, hq, hne, rfl⟩)), rfl, routed _⟩
  · exact ⟨_, _, rfl, captureInto_next.mpr (.inr (.inr ⟨us, rest, hq, heq, rfl⟩)), rfl, routed _⟩

theorem executeRead_upToRouting (bus' : Int) (T' : Duration) (h : executeRead i c bus T s = .next t) :
    EndsUpToRouting bus T s t s.hist (executeRead i c bus' T' s) := by
  obtain ⟨info, rest, hb, rfl⟩ | ⟨rest, hb, hcap⟩ := executeRead_next.mp h
  · exact ⟨_, _, rfl, executeRead_next.mpr (.inl ⟨info, rest, hb, rfl⟩), rfl,
      List.forall_mem_singleton.mpr (routedBy_burst _ _ _)⟩
  · obtain ⟨evs, evs', hhist, hrun, hcore, hrouted⟩ := captureInto_upToRouting bus' T'
      (s.hist ++ [.burst bus' Config.nameErr (frame c) T' .ok]) hcap
    refine ⟨_ :: evs, .burst bus' Config.nameErr (frame c) T' .ok :: evs', hhist.trans (List.append_assoc ..), ?_,
      congrArg (_ :: ·) hcore, List.forall_mem_cons.mpr ⟨routedBy_burst _ _ _, hrouted⟩⟩
    rw [List.append_cons]
    exact executeRead_next.mpr (.inr ⟨rest, hb, hrun⟩)

theorem execExec_upToRouting (bus' : Int) (T' : Duration) (h : execExec i bus T s = .next t) :
    EndsUpToRouting bus T s t s.hist (execExec i bus' T' s) := by
  have refused : ∀ r, execExec i bus' T' s = .next (s.refusedWith r) →
      EndsUpToRouting bus T s (s.refusedWith r) s.hist (execExec i bus' T' s) := fun r hrun =>
    ⟨[], [], (List.append_nil _).symm, by rw [hrun, List.append_nil]; rfl, rfl, List.forall_mem_nil _⟩
  obtain ⟨hf, ⟨hs, rfl⟩ | ⟨hs, rfl⟩ | ⟨p, c, hs, ⟨hk, hw⟩ | ⟨hk, hr⟩⟩⟩ := execExec_next h
  · exact refused _ (execExec_badSlot hf hs)
  · exact refused _ (execExec_noCommand hf hs)
  · rw [execExec_erw hf hs hk]
    exact executeWrite_upToRouting bus' T' hw
  · rw [execExec_err hf hs hk]
    exact executeRead_upToRouting bus' T' hr

/-! ### The statements -/

/-- Settles O57: the two runs append the same events but for their routing, which is the operands'. -/
theorem busAndTimeoutAreOnlyPassedOn : Obligations.BusAndTimeoutAreOnlyPassedOn := by
  intro i bus bus' T T' s t h
  obtain ⟨evs, evs', hhist, hrun, hcore, hrouted⟩ := execExec_upToRouting bus' T' h
  refine ⟨_, hrun, ?_, ?_⟩
  · simp only [withoutRouting, hhist, List.map_append, hcore]
  · rw [hhist, List.drop_left]
    exact hrouted

/-- Settles O33: the call with no answer left is the one at which EXEC stops. -/
theorem execWithoutAnAnswerIsStuck : Obligations.ExecWithoutAnAnswerIsStuck := by
  intro i bus T s p c hf hc
  have hs := holds_iff_slotAt.mp hc
  refine ⟨execExec_noBurstAnswer hf hs, fun hk hb hq => ?_⟩
  obtain ⟨rest, hb⟩ := List.head?_eq_some_iff.mp hb
  exact execExec_noCaptureAnswer hf hs hk hb hq

/-- Settles O28: the fault is recorded, and every request of a block with a recorded fault is stopped by `whenReady`. -/
theorem captureCountMismatchStopsTheBlock : Obligations.CaptureCountMismatchStopsTheBlock := by
  intro i bus T s p c us rest rest' hf hc hk hb hq hne
  obtain ⟨-, -, hread⟩ := execReadFollowsItsRule i bus T s hf
  obtain ⟨f, -, -, -, hother, -⟩ := hread p c hc hk
  refine ⟨_, _, hother us rest rest' hb hq hne, rfl, rfl, List.append_cons .., ?notGood, fun _ => exec_faulted rfl, ?step⟩
  case notGood => exact fun ⟨hnone, _⟩ => by cases hnone
  case step =>
    intro input more
    match input with
    | .reset => exact step_reset rfl
    | .word (.request _ _) => exact step_request_faulted rfl rfl
    | .word (.commandWord _) => exact step_commandWord rfl

/-- Settles O29: of all a request can do, only a read's capture records a fault. -/
theorem onlyACaptureCountSetsTheFaultRegister : Obligations.OnlyACaptureCountSetsTheFaultRegister := by
  intro instr s t f h ht
  obtain ⟨hf, hcases⟩ := exec_next_cases h
  refine ⟨hf, ?_⟩
  have kept : t.faultReg ≠ s.faultReg := by simp [ht, hf]
  obtain ⟨_, rfl⟩ | ⟨_, rfl⟩ | ⟨_, _, _, _, _, _, -, -, -, hc⟩ | ⟨_, _, _, _, _, -, -, hc⟩ | ⟨_, _, _, -, -, rfl⟩ |
    ⟨n, bus, T, p, c, rfl, hs, ⟨-, hw⟩ | ⟨hk, hr⟩⟩ := hcases
  case inl => exact absurd rfl kept
  case inr.inl => exact absurd rfl kept
  case inr.inr.inl => exact absurd (constructIn_faultReg hc) kept
  case inr.inr.inr.inl => exact absurd (constructIn_faultReg hc) kept
  case inr.inr.inr.inr.inl => exact absurd rfl kept
  case inr.inr.inr.inr.inr.inl => exact absurd (executeWrite_faultReg hw) kept
  case inr.inr.inr.inr.inr.inr =>
    obtain ⟨hslots, hout, hb, us, rest, hq, hne, rfl⟩ := executeRead_faulted hf hr ht
    exact ⟨hslots, hout, n, bus, T, p, c, us, rest, rfl, holds_iff_slotAt.mpr hs, hk, hb, hq, hne, rfl⟩

/-- Settles O31: an EXEC reads the held command alone, and writes its slot unless it faults. -/
theorem execIsTheSameFromEveryPhase : Obligations.ExecIsTheSameFromEveryPhase := by
  intro i bus T s t p q c hc h
  rw [holds_iff_slotAt] at hc
  obtain ⟨hf, ⟨hs, -⟩ | ⟨hs, -⟩ | ⟨p', c', hs, hrun⟩⟩ := execExec_next h
  · simp [hc] at hs
  · simp [hc] at hs
  obtain ⟨rfl, rfl⟩ : p = p' ∧ c = c' := by simpa [hc] using hs
  have hs' : (s.setSlot i (.held q c)).slotAt i = some (.held q c) := slotAt_of_slots_set rfl hs
  obtain ⟨hk, hw⟩ | ⟨hk, hr⟩ := hrun
  · rw [if_pos ((executeWrite_faultReg hw).trans hf)]
    exact (execExec_erw (s := s.setSlot i (.held q c)) hf hs' hk).trans (executeWrite_setSlot hw _)
  · exact (execExec_err (s := s.setSlot i (.held q c)) hf hs' hk).trans (executeRead_setSlot hf hr _)

/-- Settles O32: the units carry the bits of the payload's bytes, and a read stores the bytes that its units carry. -/
theorem echoedDataUnitsGiveBackTheBytes : Obligations.EchoedDataUnitsGiveBackTheBytes := by
  intro i j bus T s p q c d us f rest rest' hf hc hd hck hdk hwf hbc hframe hlen hbits hb hq
  obtain rfl := frame_of_exec_frame hf hc hframe
  have hbytes := map_capturedByte_of_frame hck (hlen.trans (payload_length_of_wf hck hwf).symm) hbits
  obtain ⟨-, -, hread⟩ := execReadFollowsItsRule j bus T s hf
  obtain ⟨f, -, -, -, -, hcaptured⟩ := hread q d hd hdk
  refine ⟨_, hcaptured us rest rest' hb hq (hbc ▸ hlen), holds_iff_slotAt.mpr ?_⟩
  rw [← hbytes, map_capturedByte]
  exact slotAt_of_slots_set rfl (holds_iff_slotAt.mp hd)

end Sys2Proof.Spec

/-! PROOFS. Which requests call the transport, which only read the state, and which are refused for their operands (20_memory.md,
30_encoding.md). -/

namespace Sys2Proof.Machine

variable {s t : State} {i : Int} {c : Command} {bus : Int} {T : Duration}

/-! ### Calls of the transport (R41, R80) -/

/-- From `s` to `t` the events `evs` were appended, and as many of the transport's answers were taken. -/
def CallsLogged (s t : State) (evs : List Event) : Prop :=
  t.hist = s.hist ++ evs ∧
    s.burstAnswers.length + s.captureAnswers.length = t.burstAnswers.length + t.captureAnswers.length + evs.length

/-- The request left the transport alone. -/
def NoCall (s t : State) : Prop :=
  t.hist = s.hist ∧ t.burstAnswers = s.burstAnswers ∧ t.captureAnswers = s.captureAnswers

theorem constructIn_noCall {k : Kind} {sa ra bc : Int} {ds : List Byte} {a : Option Text}
    (h : constructIn i k sa ra bc ds a s = .next t) : NoCall s t := by
  obtain ⟨_, -, rfl⟩ | ⟨-, rfl⟩ := constructIn_next.mp h
  · exact ⟨rfl, rfl, rfl⟩
  · exact ⟨rfl, rfl, rfl⟩

theorem executeWrite_calls (h : executeWrite i c bus T s = .next t) : ∃ evs, CallsLogged s t evs ∧ evs.length ≤ 2 := by
  obtain ⟨_, _, hb, rfl⟩ | ⟨_, hb, rfl⟩ := executeWrite_next.mp h
  · exact ⟨_, ⟨rfl, by simp [hb]; omega⟩, by simp⟩
  · exact ⟨_, ⟨rfl, by simp [hb]; omega⟩, by simp⟩

theorem captureInto_calls (h : captureInto i c bus T s = .next t) : ∃ e, CallsLogged s t [e] := by
  obtain ⟨_, _, hq, rfl⟩ | ⟨_, _, hq, -, rfl⟩ | ⟨_, _, hq, -, rfl⟩ := captureInto_next.mp h
  · exact ⟨_, rfl, by simp [hq]; omega⟩
  · exact ⟨_, rfl, by simp [hq]; omega⟩
  · exact ⟨_, rfl, by simp [hq]; omega⟩

theorem executeRead_calls (h : executeRead i c bus T s = .next t) : ∃ evs, CallsLogged s t evs ∧ evs.length ≤ 2 := by
  obtain ⟨_, _, hb, rfl⟩ | ⟨_, hb, hcap⟩ := executeRead_next.mp h
  · exact ⟨_, ⟨rfl, by simp [hb]; omega⟩, by simp⟩
  · obtain ⟨e, hhist, hcount⟩ := captureInto_calls hcap
    refine ⟨[_, e], ⟨hhist.trans (List.append_assoc ..), ?_⟩, by simp⟩
    simp only [hb, List.length_cons, List.length_nil] at hcount ⊢
    omega

/-- Only an EXEC of a held command calls the transport. -/
theorem exec_calls {instr : Instr} (h : exec instr s = .next t) :
    NoCall s t ∨ ∃ n bus T evs, instr = .exec n bus T ∧ CallsLogged s t evs ∧ evs.length ≤ 2 := by
  obtain ⟨-, ⟨_, rfl⟩ | ⟨_, rfl⟩ | ⟨_, _, _, _, _, _, -, -, -, hc⟩ | ⟨_, _, _, _, _, -, -, hc⟩ | ⟨_, _, _, -, -, rfl⟩ |
    ⟨n, bus, T, _, _, rfl, -, hrun⟩⟩ := exec_next_cases h
  case inl => exact .inl ⟨rfl, rfl, rfl⟩
  case inr.inl => exact .inl ⟨rfl, rfl, rfl⟩
  case inr.inr.inl => exact .inl (constructIn_noCall hc)
  case inr.inr.inr.inl => exact .inl (constructIn_noCall hc)
  case inr.inr.inr.inr.inl => exact .inl ⟨rfl, rfl, rfl⟩
  case inr.inr.inr.inr.inr =>
    obtain ⟨evs, hcalls⟩ := hrun.elim (fun ⟨_, hw⟩ => executeWrite_calls hw) fun ⟨_, hr⟩ => executeRead_calls hr
    exact .inr ⟨n, bus, T, evs, rfl, hcalls⟩

/-! ### Operations that only read (R80) -/

/-- The operation leaves the slots, the fault record and the history, and issued again it ends in the same state. -/
def Repeats (op : State → Host.Outcome State Fault Refusal) : Prop :=
  ∀ s t, op s = .next t → t.slots = s.slots ∧ t.faultReg = s.faultReg ∧ t.hist = s.hist ∧ op t = .next t

/-- At every state with the slots of `s`, `k` ends in the same refusal or in the same response. -/
def EndsBySlots (k : State → Host.Outcome State Fault Refusal) (s : State) : Prop :=
  (∃ r, ∀ u : State, u.slots = s.slots → k u = refuse r u) ∨ ∃ r, ∀ u : State, u.slots = s.slots → k u = respond r u

theorem endsBySlots_refuse (r : RefusalReason) : EndsBySlots (refuse r) s := .inl ⟨r, fun _ _ => rfl⟩

theorem endsBySlots_respond (r : Response) : EndsBySlots (respond r) s := .inr ⟨r, fun _ _ => rfl⟩

theorem repeats_of_endsBySlots {op k : State → Host.Outcome State Fault Refusal}
    (hop : ∀ s, op s = whenReady s (k s)) (hk : ∀ s, EndsBySlots k s) : Repeats op := by
  intro s t h
  rw [hop] at h ⊢
  obtain ⟨hf, hrun⟩ := whenReady_next.mp h
  obtain ⟨r, hr⟩ | ⟨r, hr⟩ := hk s
  · obtain rfl := refuse_next.mp ((hr s rfl).symm.trans hrun)
    refine ⟨rfl, rfl, rfl, ?_⟩
    rw [whenReady_ready (by exact hf), hr (s.refusedWith r) rfl]
    rfl
  · obtain rfl := respond_next.mp ((hr s rfl).symm.trans hrun)
    refine ⟨rfl, rfl, rfl, ?_⟩
    rw [whenReady_ready (by exact hf), hr (s.answered (.response r)) rfl]
    rfl

theorem repeats_answerFromHeld (n : Int) (out : HeldPhase → Command → Outputs) :
    Repeats fun s => answerFromHeld n s out := by
  refine repeats_of_endsBySlots (fun _ => rfl) fun s => ?_
  rcases hs : s.slotAt n with _ | _ | ⟨p, c⟩
  · exact .inl ⟨.badSlot, fun u hu => onHeld_badSlot ((slotAt_of_slots_eq hu).trans hs)⟩
  · exact .inl ⟨.noCommand, fun u hu => onHeld_empty ((slotAt_of_slots_eq hu).trans hs)⟩
  · exact .inr ⟨.ok (out p c), fun u hu => onHeld_held ((slotAt_of_slots_eq hu).trans hs)⟩

theorem repeats_execTobits (v w : Int) : Repeats (execTobits v w) := by
  refine repeats_of_endsBySlots (fun _ => rfl) fun s => ?_
  split
  · exact endsBySlots_refuse _
  · exact endsBySlots_respond _

theorem repeats_execSumbits (b : List Int) : Repeats (execSumbits b) := by
  refine repeats_of_endsBySlots (fun _ => rfl) fun s => ?_
  cases bitsOfInts b
  · exact endsBySlots_refuse _
  · exact endsBySlots_respond _

theorem repeats_execOddpar (b : List Int) : Repeats (execOddpar b) := by
  refine repeats_of_endsBySlots (fun _ => rfl) fun s => ?_
  cases bitsOfInts b
  · exact endsBySlots_refuse _
  · exact endsBySlots_respond _

theorem repeats_execOddparb (b : List Int) : Repeats (execOddparb b) := by
  refine repeats_of_endsBySlots (fun _ => rfl) fun s => ?_
  cases bytesOfInts b
  · exact endsBySlots_refuse _
  · exact endsBySlots_respond _

theorem repeats_execDecu (u : List Int) : Repeats (execDecu u) := by
  refine repeats_of_endsBySlots (fun _ => rfl) fun s => ?_
  cases bitsOfInts u
  · exact endsBySlots_refuse _
  · dsimp only
    split
    · exact endsBySlots_refuse _
    · exact endsBySlots_respond _

end Sys2Proof.Machine

namespace Sys2Proof.Spec

open Sys2Proof.Machine

/-- Settles O36: an EXEC logs each answer it takes, and every other request leaves the transport alone. -/
theorem onlyExecCallsTheTransport : Obligations.OnlyExecCallsTheTransport := by
  intro instr s t h
  obtain ⟨hhist, hb, hq⟩ | ⟨n, bus, T, evs, rfl, ⟨hhist, hcount⟩, hlen⟩ := exec_calls h
  · exact ⟨[], by rw [hhist, List.append_nil], by rw [hb, hq, List.length_nil, Nat.add_zero], .inr ⟨rfl, hb, hq⟩⟩
  · exact ⟨evs, hhist, hcount, .inl ⟨⟨n, bus, T, rfl⟩, hlen⟩⟩

/-- Settles O37: each of these operations ends in a refusal or a response that the slots and its operands decide. -/
theorem pureOperationsRepeat : Obligations.PureOperationsRepeat := by
  rintro instr s t h (⟨n, hop⟩ | ⟨v, w, b, hop⟩)
  · obtain rfl | rfl | rfl | rfl | rfl | rfl := hop <;> exact repeats_answerFromHeld n _ s t h
  · obtain rfl | rfl | rfl | rfl | rfl := hop
    · exact repeats_execTobits v w s t h
    · exact repeats_execSumbits b s t h
    · exact repeats_execOddpar b s t h
    · exact repeats_execOddparb b s t h
    · exact repeats_execDecu b s t h

/-- Settles O35: the first two parts are R307's first reasons, and a refusal with BadOperand met an operand outside its type. -/
theorem illTypedOperandsAreRefused : Obligations.IllTypedOperandsAreRefused := by
  refine fun instr s hf => ⟨fun n hn hout => exec_badSlot hf hn (not_inRange_iff_slotAt.mp hout),
    fun hslot => exec_badOperand hf fun n hn => exists_slotAt_of_inRange (hslot n hn), fun hwf h => ?_⟩
  obtain ⟨-, hbad⟩ : applies .badOperand instr s := applies_of_refused h rfl
  simp [hwf] at hbad

end Sys2Proof.Spec
